-- ==== Sys2Proof/Word.lean ====
section
/-! DEFINITION. The 16-bit word of the machine and the one place where an exact integer is brought to 16 bits
(spec/00_scope.md R8, R10, R12). -/

namespace Sys2Proof

/-- The machine's word: a register, a memory cell, an address, an instruction word (R8). Always unsigned (R10). -/
abbrev Word := BitVec 16

/-- `mask16(v) = v mod 2^16`, the value an exact non-negative integer is stored as (R10, R12). -/
abbrev mask16 (v : Nat) : Word := BitVec.ofNat 16 v

end Sys2Proof
end

