-- ==== Sys2Proof/Syntax.lean ====
section
/-! DEFINITION. The instructions: operand codes as constructors, and one constructor of `Instr` per row of
spec/opcode_table.json. An instruction is what the FIRST word says (spec/30_encoding.md R50, R61: decoding reads
nothing but the instruction word); its trailing words stay in memory and are fetched while its operands are resolved
(spec/41_execution_cycle.md R84, R85). -/

namespace Sys2Proof

/-- The eight registers an operand code reaches by index, in index order (spec/10_state.md R19). -/
inductive GReg where
  | a | b | c | x | y | z | i | j
  deriving DecidableEq, Repr

/-- The 64 operand codes (spec/30_encoding.md R55, spec/40_operand_resolver.md R66-R77). -/
inductive Operand where
  /-- 0x00-0x07: the register itself (R66) -/
  | reg (r : GReg)
  /-- 0x08-0x0F: the cell at the register (R67) -/
  | memReg (r : GReg)
  /-- 0x10-0x17: the cell at the register plus the next word (R68) -/
  | memRegNext (r : GReg)
  /-- 0x18: the cell at SP, then SP + 1 (R69) -/
  | pop
  /-- 0x19: the cell at SP (R70) -/
  | peek
  /-- 0x1A: SP - 1, then the cell at SP (R71) -/
  | push
  /-- 0x1B: SP as a register (R72) -/
  | sp
  /-- 0x1C: PC as a register (R73) -/
  | pc
  /-- 0x1D: O as a register (R74) -/
  | o
  /-- 0x1E: the cell at the next word (R75) -/
  | memNext
  /-- 0x1F: the next word itself, a literal (R76) -/
  | litNext
  /-- 0x20-0x3F: the short literal code - 0x20, which is 0x00..0x1F (R77, R59) -/
  | lit (v : BitVec 5)
  deriving DecidableEq, Repr

/-- The instructions, one constructor per row of spec/opcode_table.json, in its order. In a basic instruction `a` is
the operand resolved first (the destination where there is one) and `b` the source (R51, R52). The six EXT_NOP rows
differ in the selectors they cover; each but the first, whose only selector is 0x00, carries its selector, and
`Instr.wf` says which selectors a row has. -/
inductive Instr where
  | set (a b : Operand)
  | add (a b : Operand)
  | sub (a b : Operand)
  | mul (a b : Operand)
  | div (a b : Operand)
  | mod (a b : Operand)
  | shl (a b : Operand)
  | shr (a b : Operand)
  | and (a b : Operand)
  | bor (a b : Operand)
  | xor (a b : Operand)
  | ife (a b : Operand)
  | ifn (a b : Operand)
  | ifg (a b : Operand)
  | ifb (a b : Operand)
  | jsr (b : Operand)
  /-- selector 0x00 -/
  | extNop00 (b : Operand)
  /-- selectors 0x02-0x03 -/
  | extNop02 (s : BitVec 6) (b : Operand)
  /-- selectors 0x04-0x07 -/
  | extNop04 (s : BitVec 6) (b : Operand)
  /-- selectors 0x08-0x0F -/
  | extNop08 (s : BitVec 6) (b : Operand)
  /-- selectors 0x10-0x1F -/
  | extNop10 (s : BitVec 6) (b : Operand)
  /-- selectors 0x20-0x3F -/
  | extNop20 (s : BitVec 6) (b : Operand)
  deriving DecidableEq, Repr

end Sys2Proof
end

