-- ==== Sys2Proof/WellFormed.lean ====
section
/-! DEFINITION. Which instruction terms are instructions of the machine: every term is, but an EXT_NOP whose selector
its row does not have (spec/44_extended.md R119 names the six rows). All operand codes are legal everywhere
(spec/30_encoding.md R52, R60). -/

namespace Sys2Proof

/-- The selector `s` lies in the range `lo..hi`. -/
def selectorIn (lo hi s : BitVec 6) : Bool :=
  decide (lo ≤ s) && decide (s ≤ hi)

/-- The instruction is one the machine has: its selector belongs to its table row. -/
def Instr.wf : Instr → Bool
  | .set _ _ | .add _ _ | .sub _ _ | .mul _ _ | .div _ _ | .mod _ _ | .shl _ _ | .shr _ _ => true
  | .and _ _ | .bor _ _ | .xor _ _ | .ife _ _ | .ifn _ _ | .ifg _ _ | .ifb _ _ => true
  | .jsr _ | .extNop00 _ => true
  | .extNop02 s _ => selectorIn 0x02 0x03 s
  | .extNop04 s _ => selectorIn 0x04 0x07 s
  | .extNop08 s _ => selectorIn 0x08 0x0F s
  | .extNop10 s _ => selectorIn 0x10 0x1F s
  | .extNop20 s _ => selectorIn 0x20 0x3F s

end Sys2Proof
end

