-- ==== Sys2Proof/Decode.lean ====
section
/-! DEFINITION. The decoder, total on all 65536 words, and the encoder written from the same tables
(spec/30_encoding.md R49-R61, spec/opcode_table.json); the trailing-word predicate and the instruction length. -/

namespace Sys2Proof

/-! ## Fields of the instruction word -/

/-- `o = w[3:0]` (R49). -/
def opField (w : Word) : BitVec 4 := w.extractLsb' 0 4

/-- `a = w[9:4]`, the A code of a basic word and the selector of an extended one (R49, R53). -/
def aField (w : Word) : BitVec 6 := w.extractLsb' 4 6

/-- `b = w[15:10]` (R49). -/
def bField (w : Word) : BitVec 6 := w.extractLsb' 10 6

/-! ## Operand codes -/

/-- The register of index `n` (spec/10_state.md R19). -/
def GReg.ofIndex (n : BitVec 3) : GReg :=
  match n.toNat with
  | 0 => .a
  | 1 => .b
  | 2 => .c
  | 3 => .x
  | 4 => .y
  | 5 => .z
  | 6 => .i
  | _ => .j

/-- The index of a register (spec/10_state.md R19). -/
def GReg.index : GReg → BitVec 3
  | .a => 0
  | .b => 1
  | .c => 2
  | .x => 3
  | .y => 4
  | .z => 5
  | .i => 6
  | .j => 7

/-- The operand an operand code names (R55). -/
def decodeOperand (c : BitVec 6) : Operand :=
  if c < 0x08 then .reg (GReg.ofIndex (c.extractLsb' 0 3))
  else if c < 0x10 then .memReg (GReg.ofIndex (c.extractLsb' 0 3))
  else if c < 0x18 then .memRegNext (GReg.ofIndex (c.extractLsb' 0 3))
  else if c = 0x18 then .pop
  else if c = 0x19 then .peek
  else if c = 0x1A then .push
  else if c = 0x1B then .sp
  else if c = 0x1C then .pc
  else if c = 0x1D then .o
  else if c = 0x1E then .memNext
  else if c = 0x1F then .litNext
  else .lit (c.extractLsb' 0 5)

/-- The operand code of an operand (R55). -/
def Operand.code : Operand → BitVec 6
  | .reg r => 0x00 + r.index.setWidth 6
  | .memReg r => 0x08 + r.index.setWidth 6
  | .memRegNext r => 0x10 + r.index.setWidth 6
  | .pop => 0x18
  | .peek => 0x19
  | .push => 0x1A
  | .sp => 0x1B
  | .pc => 0x1C
  | .o => 0x1D
  | .memNext => 0x1E
  | .litNext => 0x1F
  | .lit v => 0x20 + v.setWidth 6

/-! ## Decoding -/

/-- The instruction of an extended word, by its selector (R53, R54). -/
def decodeExt (s : BitVec 6) (b : Operand) : Instr :=
  if s = 0x00 then .extNop00 b
  else if s = 0x01 then .jsr b
  else if s < 0x04 then .extNop02 s b
  else if s < 0x08 then .extNop04 s b
  else if s < 0x10 then .extNop08 s b
  else if s < 0x20 then .extNop10 s b
  else .extNop20 s b

/-- The instruction of a word: no word is illegal (R50, R51, R52, R60). -/
def decode (w : Word) : Instr :=
  let a := decodeOperand (aField w)
  let b := decodeOperand (bField w)
  match (opField w).toNat with
  | 0 => decodeExt (aField w) b
  | 1 => .set a b
  | 2 => .add a b
  | 3 => .sub a b
  | 4 => .mul a b
  | 5 => .div a b
  | 6 => .mod a b
  | 7 => .shl a b
  | 8 => .shr a b
  | 9 => .and a b
  | 10 => .bor a b
  | 11 => .xor a b
  | 12 => .ife a b
  | 13 => .ifn a b
  | 14 => .ifg a b
  | _ => .ifb a b

/-! ## Encoding -/

/-- The word `bbbbbbaaaaaaoooo` (R49, R51). -/
def packWord (b a : BitVec 6) (o : BitVec 4) : Word := b ++ a ++ o

/-- The instruction word of an instruction (R52, R54). -/
def encode : Instr → Word
  | .set a b => packWord b.code a.code 0x1
  | .add a b => packWord b.code a.code 0x2
  | .sub a b => packWord b.code a.code 0x3
  | .mul a b => packWord b.code a.code 0x4
  | .div a b => packWord b.code a.code 0x5
  | .mod a b => packWord b.code a.code 0x6
  | .shl a b => packWord b.code a.code 0x7
  | .shr a b => packWord b.code a.code 0x8
  | .and a b => packWord b.code a.code 0x9
  | .bor a b => packWord b.code a.code 0xA
  | .xor a b => packWord b.code a.code 0xB
  | .ife a b => packWord b.code a.code 0xC
  | .ifn a b => packWord b.code a.code 0xD
  | .ifg a b => packWord b.code a.code 0xE
  | .ifb a b => packWord b.code a.code 0xF
  | .jsr b => packWord b.code 0x01 0x0
  | .extNop00 b => packWord b.code 0x00 0x0
  | .extNop02 s b => packWord b.code s 0x0
  | .extNop04 s b => packWord b.code s 0x0
  | .extNop08 s b => packWord b.code s 0x0
  | .extNop10 s b => packWord b.code s 0x0
  | .extNop20 s b => packWord b.code s 0x0

/-! ## Lengths -/

/-- `nw(code)`: the number of trailing words an operand code consumes, 0 or 1 (R56). -/
def nw (c : BitVec 6) : Nat :=
  if (0x10 ≤ c ∧ c ≤ 0x17) ∨ c = 0x1E ∨ c = 0x1F then 1 else 0

/-- `len(w)`: an instruction's length in words, from its first word alone (R57). -/
def lenWord (w : Word) : Nat :=
  if opField w = 0 then 1 + nw (bField w) else 1 + nw (aField w) + nw (bField w)

/-- The trailing words an operand consumes, by its form (R66-R77). -/
def Operand.trailing : Operand → Nat
  | .memRegNext _ | .memNext | .litNext => 1
  | .reg _ | .memReg _ | .pop | .peek | .push | .sp | .pc | .o | .lit _ => 0

/-- The trailing words of an instruction: A's (basic form only), then B's (R51, R58, R120). -/
def Instr.trailing : Instr → Nat
  | .set a b | .add a b | .sub a b | .mul a b | .div a b | .mod a b | .shl a b | .shr a b => a.trailing + b.trailing
  | .and a b | .bor a b | .xor a b | .ife a b | .ifn a b | .ifg a b | .ifb a b => a.trailing + b.trailing
  | .jsr b | .extNop00 b => b.trailing
  | .extNop02 _ b | .extNop04 _ b | .extNop08 _ b | .extNop10 _ b | .extNop20 _ b => b.trailing

/-! ## Instructions as words in address order -/

/-- Why a list of words is not a whole instruction. No first word is ever the reason (R60). -/
inductive DecodeError where
  /-- there is no first word -/
  | noWord
  /-- the list ends before the instruction's last trailing word -/
  | missingTrailing
  deriving DecidableEq, Repr

/-- Read one instruction off the front of a list of words: the instruction, its trailing words in address order, and
the words after it (R57, R58). -/
def decodeWords : List Word → Except DecodeError (Instr × List Word × List Word)
  | [] => .error .noWord
  | w :: ws =>
    let n := (decode w).trailing
    if ws.length < n then .error .missingTrailing
    else .ok (decode w, ws.take n, ws.drop n)

/-- The words of an instruction in address order: its first word, then its trailing words (R58). -/
def encodeWords (i : Instr) (tw : List Word) : List Word := encode i :: tw

/-! ## The opcode table's words -/

/-- The three words (the longest instruction) whose bits are `w`, numbered as spec/opcode_table.json numbers them, with
every bit from `nbits` on zero; none if there is not even one whole word. -/
def tableWords (nbits w : Nat) : List Word :=
  if nbits < 16 then []
  else
    let v := w % 2 ^ nbits
    [mask16 v, mask16 (v / 2 ^ 16), mask16 (v / 2 ^ 32)]

/-- The instruction the decoder reads from an instruction whose bits are `w`. -/
def decodeTableWord (nbits w : Nat) : Option Instr :=
  match decodeWords (tableWords nbits w) with
  | .ok (i, _, _) => some i
  | .error _ => none

/-! ## The opcode table itself -/

/-- One row of spec/opcode_table.json: the words `w` with `w &&& mask = pattern`. -/
structure OpcodeRow where
  mnemonic : String
  mask : Word
  pattern : Word
  deriving DecidableEq, Repr

/-- The 22 rows of spec/opcode_table.json, in its order. -/
def opcodeTable : List OpcodeRow :=
  [ ⟨"SET", 0x000F, 0x0001⟩, ⟨"ADD", 0x000F, 0x0002⟩, ⟨"SUB", 0x000F, 0x0003⟩, ⟨"MUL", 0x000F, 0x0004⟩,
    ⟨"DIV", 0x000F, 0x0005⟩, ⟨"MOD", 0x000F, 0x0006⟩, ⟨"SHL", 0x000F, 0x0007⟩, ⟨"SHR", 0x000F, 0x0008⟩,
    ⟨"AND", 0x000F, 0x0009⟩, ⟨"BOR", 0x000F, 0x000A⟩, ⟨"XOR", 0x000F, 0x000B⟩ ] ++
  [ ⟨"IFE", 0x000F, 0x000C⟩, ⟨"IFN", 0x000F, 0x000D⟩, ⟨"IFG", 0x000F, 0x000E⟩, ⟨"IFB", 0x000F, 0x000F⟩,
    ⟨"JSR", 0x03FF, 0x0010⟩ ] ++
  [ ⟨"EXT_NOP", 0x03FF, 0x0000⟩, ⟨"EXT_NOP", 0x03EF, 0x0020⟩, ⟨"EXT_NOP", 0x03CF, 0x0040⟩,
    ⟨"EXT_NOP", 0x038F, 0x0080⟩, ⟨"EXT_NOP", 0x030F, 0x0100⟩, ⟨"EXT_NOP", 0x020F, 0x0200⟩ ]

/-- The position of an instruction's row in `opcodeTable`. -/
def Instr.row : Instr → Nat
  | .set _ _ => 0
  | .add _ _ => 1
  | .sub _ _ => 2
  | .mul _ _ => 3
  | .div _ _ => 4
  | .mod _ _ => 5
  | .shl _ _ => 6
  | .shr _ _ => 7
  | .and _ _ => 8
  | .bor _ _ => 9
  | .xor _ _ => 10
  | .ife _ _ => 11
  | .ifn _ _ => 12
  | .ifg _ _ => 13
  | .ifb _ _ => 14
  | .jsr _ => 15
  | .extNop00 _ => 16
  | .extNop02 _ _ => 17
  | .extNop04 _ _ => 18
  | .extNop08 _ _ => 19
  | .extNop10 _ _ => 20
  | .extNop20 _ _ => 21

end Sys2Proof
end

