-- ==== Sys2Proof/Config.lean ====
section
/-! DEFINITION. What is fixed for the machine and what a model takes as an argument (spec/00_scope.md R8).
The spec leaves no value of an instruction open (spec/93_implementation_defined.md), so there is no free value here.
`MEM_INIT` is the argument of `Machine.State.resetWith`. -/

namespace Sys2Proof

/-- The number of memory cells: one flat address space of 65536 words (R8, R30). -/
def Config.memWords : Nat := 65536

/-- PC at reset; the first step fetches here (R33, R139). -/
def Config.resetPc : Word := 0x0000

/-- SP at reset; the first push writes the cell below it (R33, R40). -/
def Config.resetSp : Word := 0xFFFF

/-- The host's run-end condition, a parameter of a run and never a property of the core (R8, R16, R147): the
breakpoint set, held as a list, and whether PC is tested before the first step. -/
structure Config.RunParams where
  /-- `BREAKPOINTS` -/
  breakpoints : List Word
  /-- `CHECK_BEFORE_FIRST` -/
  checkBeforeFirst : Bool
  deriving DecidableEq, Repr

end Sys2Proof
end

