-- ==== Sys2Proof/Machine/State.lean ====
section
/-! DEFINITION. The architectural state: eleven 16-bit registers and 65536 words of memory, and nothing else
(spec/10_state.md R18, R30, R31); the reset state; the reasons a step can stop. -/

namespace Sys2Proof.Machine

/-- The eleven registers by name (R18), the registers a descriptor `Reg(r)` can name (spec/00_scope.md R13). -/
inductive Reg where
  | a | b | c | x | y | z | i | j
  | pc | sp | o
  deriving DecidableEq, Repr

/-- Memory: the cells that differ from what an unlisted address holds, as (address, word), addresses strictly rising.
The addressable unit is the 16-bit word (spec/20_memory.md R34), so a cell is a word and not a byte: log entry 1.
`Memory.wf` is the canonical form; it, `Memory.unlisted`, reading and writing are in Ops.lean. -/
abbrev Memory := List (Nat × Word)

/-- The machine's state (R18, R30): the general and index registers A, B, C, X, Y, Z, I, J; PC, the address of the next
word the engine fetches (R23); SP, the address of the top stack word (R25); O, the overflow register (R26); memory. -/
structure State where
  a : Word
  b : Word
  c : Word
  x : Word
  y : Word
  z : Word
  i : Word
  j : Word
  pc : Word
  sp : Word
  o : Word
  mem : Memory
  deriving DecidableEq, Repr

/-- The machine raises no fault: "There is no concept of a fatal/halting error in the core" (R122), and no behaviour is
`fault` or `stuck` (spec/93_implementation_defined.md), so no constructor exists and nobody can raise one. -/
inductive Fault where
  deriving DecidableEq, Repr

/-- Why the model, not the machine, gives an instruction no next state. -/
inductive Refusal where
  /-- The instruction of this mnemonic has no meaning yet. Raised by a refused arm of `exec` only (today by none); safe:
  the model stops where the hardware goes on. -/
  | notModelled (mnemonic : String)
  deriving DecidableEq, Repr

/-- The machine right after reset with the loader's image `memInit` in memory (R33, R138): PC and the general
registers and O are 0, SP is 0xFFFF. `MEM_INIT` has no default in the spec, so it is an argument here. -/
def State.resetWith (memInit : Memory) : State :=
  { a := 0, b := 0, c := 0, x := 0, y := 0, z := 0, i := 0, j := 0,
    pc := Config.resetPc, sp := Config.resetSp, o := 0, mem := memInit }

/-- The machine right after reset with nothing placed in memory. DESIGN CHOICE (log entry 2), unsafe: the spec gives
memory no value before the loader writes it, and here every cell then reads as 0. -/
def State.reset : State := State.resetWith []

end Sys2Proof.Machine
end

