-- ==== Sys2Proof/Machine/Ops.lean ====
section
/-! DEFINITION. The named operations on memory, registers, the program counter and the stack
(spec/00_scope.md R12, spec/10_state.md, spec/20_memory.md, spec/41_execution_cycle.md R85,
spec/43_conditional_skip.md R114). No exception exists (spec/60_exceptions.md R122, R129), so there is no operation
that takes one and none that returns from one. -/

namespace Sys2Proof.Machine

/-! ## Memory -/

/-- What an address that memory does not list reads as. DESIGN CHOICE (log entry 2), unsafe only where a claim starts
from `State.reset`: with this default the list can hold every image, so a claim about all states covers every
`MEM_INIT`. -/
def Memory.unlisted : Word := 0x0000

/-- The canonical form: addresses strictly rising and inside the address space, no entry equal to what an unlisted
address reads as. -/
abbrev Memory.wf (m : Memory) : Prop :=
  m.Pairwise (fun p q => p.1 < q.1) ∧ ∀ p ∈ m, p.1 < Config.memWords ∧ p.2 ≠ Memory.unlisted

/-- `MemRead(addr, 1)`: the cell's current value, no side effect (R12, R39). -/
def Memory.read : Memory → Word → Word
  | [], _ => Memory.unlisted
  | (k, v) :: rest, addr => if k = addr.toNat then v else Memory.read rest addr

/-- Remove a cell from the list, so that it reads as an unlisted one. -/
def Memory.erase (m : Memory) (addr : Word) : Memory :=
  m.filter (fun p => p.1 ≠ addr.toNat)

/-- Put `(k, v)` at its place in the rising list, over an entry of the same address. -/
def Memory.insert (k : Nat) (v : Word) : Memory → Memory
  | [] => [(k, v)]
  | (k', v') :: rest =>
    if k' < k then (k', v') :: Memory.insert k v rest
    else if k' = k then (k, v) :: rest
    else (k, v) :: (k', v') :: rest

/-- `MemWrite(addr, 1, v)`: one whole 16-bit cell (R12, R34, R37), the canonical form kept. -/
def Memory.write (m : Memory) (addr v : Word) : Memory :=
  if v = Memory.unlisted then Memory.erase m addr else Memory.insert addr.toNat v m

/-- The memory holding the words `ws` from `addr` on, addresses wrapping (R41), the rest as in `m`. -/
def Memory.writeWords (m : Memory) (addr : Word) : List Word → Memory
  | [] => m
  | w :: ws => Memory.writeWords (Memory.write m addr w) (addr + 1) ws

/-! ## Registers -/

/-- The register of a general register's name (spec/10_state.md R19). -/
def generalReg : GReg → Reg
  | .a => .a
  | .b => .b
  | .c => .c
  | .x => .x
  | .y => .y
  | .z => .z
  | .i => .i
  | .j => .j

/-- The value of a register. -/
def State.reg (s : State) : Reg → Word
  | .a => s.a
  | .b => s.b
  | .c => s.c
  | .x => s.x
  | .y => s.y
  | .z => s.z
  | .i => s.i
  | .j => s.j
  | .pc => s.pc
  | .sp => s.sp
  | .o => s.o

/-- `r <- v`: the register's new value, every other piece of state unchanged; the value is already 16 bits wide
(R12, R21), and no register is hard-wired or read-only (R20, R28). -/
def State.setReg (s : State) (r : Reg) (v : Word) : State :=
  match r with
  | .a => { s with a := v }
  | .b => { s with b := v }
  | .c => { s with c := v }
  | .x => { s with x := v }
  | .y => { s with y := v }
  | .z => { s with z := v }
  | .i => { s with i := v }
  | .j => { s with j := v }
  | .pc => { s with pc := v }
  | .sp => { s with sp := v }
  | .o => { s with o := v }

/-- The word memory holds at an address. -/
def State.cell (s : State) (addr : Word) : Word := Memory.read s.mem addr

/-- `M[addr] <- v`. -/
def State.setCell (s : State) (addr v : Word) : State :=
  { s with mem := Memory.write s.mem addr v }

/-! ## Fetch -/

/-- PC moved on by `n` words, modulo 2^16 (R24). -/
def State.advance (s : State) (n : Nat) : State :=
  { s with pc := s.pc + mask16 n }

/-- `NextWord()`: the word at PC, and PC one further, modulo 2^16 (R85). -/
def nextWord (s : State) : Word × State :=
  (s.cell s.pc, s.advance 1)

/-! ## Stack -/

/-- SP one down, modulo 2^16: the first half of a push (R25, R71, R118). -/
def State.pushSp (s : State) : State := { s with sp := s.sp - 1 }

/-- SP one up, modulo 2^16: the second half of a pop (R25, R69). -/
def State.popSp (s : State) : State := { s with sp := s.sp + 1 }

/-- Push a word: SP down first, then the write at the new SP (R118). -/
def pushWord (v : Word) (s : State) : State :=
  let s1 := s.pushSp
  s1.setCell s1.sp v

/-! ## Skip -/

/-- `Skip()`: PC past the whole next instruction, of which only the first word is read; nothing else happens
(R114, R115, R116). -/
def skip (s : State) : State :=
  s.advance (lenWord (s.cell s.pc))

end Sys2Proof.Machine
end

