-- ==== Sys2Proof/Machine/Operands.lean ====
section
/-! DEFINITION. The operand resolver: what each of the 64 operand codes resolves to and its side effects on PC and SP,
the order of resolution, and reading and writing a resolved operand (spec/40_operand_resolver.md). -/

namespace Sys2Proof.Machine

/-- A resolved operand (spec/00_scope.md R13). A `mem` descriptor holds the address it bound when it was resolved, a
`reg` descriptor names a register that is read later (R79). -/
inductive Desc where
  | reg (r : Reg)
  | mem (addr : Word)
  | lit (v : Word)
  deriving DecidableEq, Repr

/-- `Resolve(code)`: the descriptor, and the state after the side effects on PC and SP (R65-R77). -/
def resolve : Operand → State → Desc × State
  | .reg r, s => (.reg (generalReg r), s)
  | .memReg r, s => (.mem (s.reg (generalReg r)), s)
  | .memRegNext r, s =>
    let n := nextWord s
    (.mem (s.reg (generalReg r) + n.1), n.2)
  | .pop, s => (.mem s.sp, s.popSp)
  | .peek, s => (.mem s.sp, s)
  | .push, s =>
    let s1 := s.pushSp
    (.mem s1.sp, s1)
  | .sp, s => (.reg .sp, s)
  | .pc, s => (.reg .pc, s)
  | .o, s => (.reg .o, s)
  | .memNext, s =>
    let n := nextWord s
    (.mem n.1, n.2)
  | .litNext, s =>
    let n := nextWord s
    (.lit n.1, n.2)
  | .lit v, s => (.lit (v.setWidth 16), s)

/-- `OpRead(d)` (R80). -/
def opRead : Desc → State → Word
  | .reg r, s => s.reg r
  | .mem addr, s => s.cell addr
  | .lit v, _ => v

/-- `OpWrite(d, v)`: a literal discards the value (R81). -/
def opWrite : Desc → Word → State → State
  | .reg r, v, s => s.setReg r v
  | .mem addr, v, s => s.setCell addr v
  | .lit _, _, s => s

/-- A basic instruction's operands, resolved and read. -/
structure Fetched where
  /-- `dA`, the destination -/
  dst : Desc
  /-- `a = OpRead(dA)` -/
  a : Word
  /-- `b = OpRead(dB)` -/
  b : Word
  /-- the state after both resolutions -/
  st : State
  deriving DecidableEq, Repr

/-- A resolved wholly before B; then both values read once, before any write (R78, R79, R89). -/
def fetchOperands (a b : Operand) (s : State) : Fetched :=
  let rA := resolve a s
  let rB := resolve b rA.2
  { dst := rA.1, a := opRead rA.1 rB.2, b := opRead rB.1 rB.2, st := rB.2 }

end Sys2Proof.Machine
end

