-- ==== Sys2Proof/Machine/Flags.lean ====
section
/-! DEFINITION. The results of the arithmetic opcodes, what each does to O, and the order of the two writes
(spec/10_state.md R26, spec/41_execution_cycle.md R89-R91, spec/42_basic_alu.md). Intermediates are exact
non-negative integers, brought to 16 bits at the end (spec/00_scope.md R10). An effect on O is `some v` where the
rule writes O and `none` where it leaves O unchanged; there are no other flags (R27). -/

namespace Sys2Proof.Machine

/-! ## ADD (R97) -/

def addResult (a b : Word) : Word := mask16 (a.toNat + b.toNat)

/-- 1 on a carry, else unchanged. -/
def addO (a b : Word) : Option Word :=
  if a.toNat + b.toNat > 0xFFFF then some 0x0001 else none

/-! ## SUB (R98) -/

/-- `a - b`, and `0x10000 - |a - b|` where that is negative. -/
def subResult (a b : Word) : Word :=
  if a.toNat < b.toNat then mask16 (0x10000 - (b.toNat - a.toNat)) else mask16 (a.toNat - b.toNat)

/-- 0xFFFF on a borrow, else unchanged. -/
def subO (a b : Word) : Option Word :=
  if a.toNat < b.toNat then some 0xFFFF else none

/-! ## MUL (R99) -/

def mulResult (a b : Word) : Word := mask16 (a.toNat * b.toNat)

/-- The product's high word where the product exceeds 16 bits, else unchanged. -/
def mulO (a b : Word) : Option Word :=
  if a.toNat * b.toNat > 0xFFFF then some (mask16 ((a.toNat * b.toNat) >>> 16)) else none

/-! ## DIV (R100) and MOD (R101) -/

def divResult (a b : Word) : Word :=
  if b = 0 then 0 else mask16 (a.toNat / b.toNat)

/-- The 16 fraction bits of a / b, 0 where b is 0; always written. -/
def divO (a b : Word) : Option Word :=
  some (if b = 0 then 0 else mask16 ((a.toNat <<< 16) / b.toNat))

def modResult (a b : Word) : Word :=
  if b = 0 then 0 else mask16 (a.toNat % b.toNat)

/-! ## SHL (R102) and SHR (R103): the count is all 16 bits of b -/

def shlResult (a b : Word) : Word := mask16 (a.toNat <<< b.toNat)

/-- Bits 31:16 of the exact shift; always written. -/
def shlO (a b : Word) : Option Word := some (mask16 ((a.toNat <<< b.toNat) >>> 16))

def shrResult (a b : Word) : Word := mask16 (a.toNat >>> b.toNat)

/-- The 16 bits below the binary point of the exact shift; always written. -/
def shrO (a b : Word) : Option Word := some (mask16 ((a.toNat <<< 16) >>> b.toNat))

/-! ## Writing O and the destination -/

/-- O written where the rule writes it, else left unchanged (R91). -/
def writeO (o : Option Word) (s : State) : State :=
  match o with
  | some v => s.setReg .o v
  | none => s

/-- The destination first, then O: ADD, MUL, DIV, SHL, SHR, and with no effect on O SET, MOD, AND, BOR, XOR (R90). -/
def dstThenO (f : Fetched) (v : Word) (o : Option Word) : State :=
  writeO o (opWrite f.dst v f.st)

/-- O first, then the destination: SUB (R90, R98). -/
def oThenDst (f : Fetched) (v : Word) (o : Option Word) : State :=
  opWrite f.dst v (writeO o f.st)

end Sys2Proof.Machine
end

