-- ==== Sys2Proof/Machine/Alu.lean ====
section
/-! DEFINITION. The meanings of opcodes 0x1-0xB: SET, ADD, SUB, MUL, DIV, MOD, SHL, SHR, AND, BOR, XOR
(spec/42_basic_alu.md). A meaning starts where the instruction word has been fetched and PC is past it
(spec/41_execution_cycle.md R84), and always answers a next state (R122). -/

namespace Sys2Proof.Machine

/-- SET (R96) -/
def execSet (a b : Operand) (s : State) : Host.Outcome State Fault Refusal :=
  let f := fetchOperands a b s
  .next (dstThenO f f.b none)

/-- ADD (R97) -/
def execAdd (a b : Operand) (s : State) : Host.Outcome State Fault Refusal :=
  let f := fetchOperands a b s
  .next (dstThenO f (addResult f.a f.b) (addO f.a f.b))

/-- SUB (R98): O is written before the destination -/
def execSub (a b : Operand) (s : State) : Host.Outcome State Fault Refusal :=
  let f := fetchOperands a b s
  .next (oThenDst f (subResult f.a f.b) (subO f.a f.b))

/-- MUL (R99) -/
def execMul (a b : Operand) (s : State) : Host.Outcome State Fault Refusal :=
  let f := fetchOperands a b s
  .next (dstThenO f (mulResult f.a f.b) (mulO f.a f.b))

/-- DIV (R100) -/
def execDiv (a b : Operand) (s : State) : Host.Outcome State Fault Refusal :=
  let f := fetchOperands a b s
  .next (dstThenO f (divResult f.a f.b) (divO f.a f.b))

/-- MOD (R101): O unchanged, by zero too -/
def execMod (a b : Operand) (s : State) : Host.Outcome State Fault Refusal :=
  let f := fetchOperands a b s
  .next (dstThenO f (modResult f.a f.b) none)

/-- SHL (R102) -/
def execShl (a b : Operand) (s : State) : Host.Outcome State Fault Refusal :=
  let f := fetchOperands a b s
  .next (dstThenO f (shlResult f.a f.b) (shlO f.a f.b))

/-- SHR (R103) -/
def execShr (a b : Operand) (s : State) : Host.Outcome State Fault Refusal :=
  let f := fetchOperands a b s
  .next (dstThenO f (shrResult f.a f.b) (shrO f.a f.b))

/-- AND (R104) -/
def execAnd (a b : Operand) (s : State) : Host.Outcome State Fault Refusal :=
  let f := fetchOperands a b s
  .next (dstThenO f (f.a &&& f.b) none)

/-- BOR (R105) -/
def execBor (a b : Operand) (s : State) : Host.Outcome State Fault Refusal :=
  let f := fetchOperands a b s
  .next (dstThenO f (f.a ||| f.b) none)

/-- XOR (R106) -/
def execXor (a b : Operand) (s : State) : Host.Outcome State Fault Refusal :=
  let f := fetchOperands a b s
  .next (dstThenO f (f.a ^^^ f.b) none)

end Sys2Proof.Machine
end

