-- ==== Sys2Proof/Machine/Conditional.lean ====
section
/-! DEFINITION. The meanings of opcodes 0xC-0xF: IFE, IFN, IFG, IFB (spec/43_conditional_skip.md). A false condition
skips the next instruction inside the same step (R109, R114); the condition is stored nowhere. -/

namespace Sys2Proof.Machine

/-- `ExecuteIf(cond)` (R109). -/
def skipUnless (cond : Bool) (s : State) : State :=
  if cond then s else skip s

/-- IFE (R110): a = b -/
def execIfe (a b : Operand) (s : State) : Host.Outcome State Fault Refusal :=
  let f := fetchOperands a b s
  .next (skipUnless (decide (f.a = f.b)) f.st)

/-- IFN (R111): a ≠ b -/
def execIfn (a b : Operand) (s : State) : Host.Outcome State Fault Refusal :=
  let f := fetchOperands a b s
  .next (skipUnless (decide (f.a ≠ f.b)) f.st)

/-- IFG (R112): a > b, unsigned -/
def execIfg (a b : Operand) (s : State) : Host.Outcome State Fault Refusal :=
  let f := fetchOperands a b s
  .next (skipUnless (decide (f.a.toNat > f.b.toNat)) f.st)

/-- IFB (R113): (a & b) ≠ 0 -/
def execIfb (a b : Operand) (s : State) : Host.Outcome State Fault Refusal :=
  let f := fetchOperands a b s
  .next (skipUnless (decide (f.a &&& f.b ≠ 0)) f.st)

end Sys2Proof.Machine
end

