-- ==== Sys2Proof/Machine/Extended.lean ====
section
/-! DEFINITION. The meanings of the extended instructions: JSR and the six EXT_NOP rows (spec/44_extended.md). The one
operand is resolved, with its side effects, whatever the selector (R120). -/

namespace Sys2Proof.Machine

/-- JSR (R118): push PC, which is past the whole instruction, then read the target, which so sees the push. -/
def execJsr (b : Operand) (s : State) : Host.Outcome State Fault Refusal :=
  let r := resolve b s
  let s2 := pushWord r.2.pc r.2
  .next (s2.setReg .pc (opRead r.1 s2))

/-- `ExecuteExt(s, dB)` for a selector other than 0x01 (R119): the operand is resolved, never read, and nothing else
happens, whatever the selector. -/
def resolveOnly (b : Operand) (s : State) : State := (resolve b s).2

/-- EXT_NOP, selector 0x00 (R119) -/
def execExtNop00 (b : Operand) (s : State) : Host.Outcome State Fault Refusal :=
  .next (resolveOnly b s)

/-- EXT_NOP, selectors 0x02-0x03 (R119) -/
def execExtNop02 (b : Operand) (s : State) : Host.Outcome State Fault Refusal :=
  .next (resolveOnly b s)

/-- EXT_NOP, selectors 0x04-0x07 (R119) -/
def execExtNop04 (b : Operand) (s : State) : Host.Outcome State Fault Refusal :=
  .next (resolveOnly b s)

/-- EXT_NOP, selectors 0x08-0x0F (R119) -/
def execExtNop08 (b : Operand) (s : State) : Host.Outcome State Fault Refusal :=
  .next (resolveOnly b s)

/-- EXT_NOP, selectors 0x10-0x1F (R119) -/
def execExtNop10 (b : Operand) (s : State) : Host.Outcome State Fault Refusal :=
  .next (resolveOnly b s)

/-- EXT_NOP, selectors 0x20-0x3F (R119) -/
def execExtNop20 (b : Operand) (s : State) : Host.Outcome State Fault Refusal :=
  .next (resolveOnly b s)

end Sys2Proof.Machine
end

