-- ==== Sys2Proof/Machine/Step.lean ====
section
/-! DEFINITION. One `Step` (spec/41_execution_cycle.md R84), and placing an instruction where the next step fetches. -/

namespace Sys2Proof.Machine

/-- `Step()`: fetch the instruction word at PC, PC past it, decode, execute (R84, R86, R87). -/
def step (s : State) : Host.Outcome State Fault Refusal :=
  let n := nextWord s
  exec (decode n.1) n.2

/-- `s` with the instruction whose bits are `w` (numbered as spec/opcode_table.json numbers them) stored where the next
step fetches: its three possible words at PC and the two addresses after it. It stands for the loader's writes (R141,
log entry 3). -/
def State.withFetchWord (s : State) (nbits w : Nat) : State :=
  { s with mem := Memory.writeWords s.mem s.pc (tableWords nbits w) }

end Sys2Proof.Machine
end

