-- ==== Sys2Proof/Machine/Diagnostic.lean ====
section
/-! DEFINITION. The optional diagnostic output (spec/00_scope.md R15, spec/40_operand_resolver.md R81,
spec/60_exceptions.md R123, spec/93_implementation_defined.md I2). It is no state and no step reads it: what is modelled
is which outputs a step may have. -/

namespace Sys2Proof.Machine

/-- The one diagnostic event. -/
inductive Diagnostic where
  | literalWriteIgnored
  deriving DecidableEq, Repr

/-- The destination operand of an instruction: A of opcodes 0x1-0xB, and none of any other (R123). -/
def destination : Instr → Option Operand
  | .set a _ | .add a _ | .sub a _ | .mul a _ | .div a _ | .mod a _ | .shl a _ | .shr a _ => some a
  | .and a _ | .bor a _ | .xor a _ => some a
  | .ife _ _ | .ifn _ _ | .ifg _ _ | .ifb _ _ | .jsr _ => none
  | .extNop00 _ | .extNop02 _ _ | .extNop04 _ _ | .extNop08 _ _ | .extNop10 _ _ | .extNop20 _ _ => none

/-- The event a write through a descriptor may signal (R81). -/
def writeEvent : Desc → Option Diagnostic
  | .lit _ => some .literalWriteIgnored
  | .reg _ | .mem _ => none

/-- The event executing an instruction may signal: at most one, by its destination write (R123). -/
def execEvent (i : Instr) (s : State) : Option Diagnostic :=
  match destination i with
  | some a => writeEvent (resolve a s).1
  | none => none

/-- The event the step from `s` may signal. -/
def stepEvent (s : State) : Option Diagnostic :=
  let n := nextWord s
  execEvent (decode n.1) n.2

/-- `e` is a diagnostic output that the step from `s` may have: no event is always allowed, because the output is
optional (I2: any value). -/
def diagnosticAllowed (s : State) (e : Option Diagnostic) : Bool :=
  decide (e = none) || decide (e = stepEvent s)

end Sys2Proof.Machine
end

