-- ==== Sys2Proof/Machine/Port.lean ====
section
/-! DEFINITION. The boundary to the host (spec/00_scope.md R15, R16, spec/70_reset_and_hazards.md R138, R141, R147):
what the host may do between steps, loading before the first step, and the monitor's run-end contract. `Step` is `step`.
There is no host write of a register. -/

namespace Sys2Proof.Machine

/-- `ReadReg(r)` (R15) -/
def readReg (s : State) (r : Reg) : Word := s.reg r

/-- `ReadMem(addr)` (R15) -/
def readMem (s : State) (addr : Word) : Word := s.cell addr

/-- `WriteMem(addr, v)`, used before the first step (R15, R141). -/
def writeMem (s : State) (addr v : Word) : State := s.setCell addr v

/-- `Reset`, then the loader's `WriteMem` of each word of the program in turn: the machine before its first step. -/
def boot (image : List (Word × Word)) : State :=
  image.foldl (fun s p => writeMem s p.1 p.2) State.reset

/-! ## The monitor's breakpoint set and run (R16, R147) -/

/-- add -/
def addBreakpoint (addr : Word) (bs : List Word) : List Word :=
  if addr ∈ bs then bs else addr :: bs

/-- remove -/
def removeBreakpoint (addr : Word) (bs : List Word) : List Word :=
  bs.filter (fun b => b ≠ addr)

/-- clear -/
def clearBreakpoints (_ : List Word) : List Word := []

/-- How a host's run came to its end. -/
inductive RunEnd where
  /-- PC is in the breakpoint set -/
  | atBreakpoint
  /-- the host called `Step` as often as it wanted to -/
  | outOfSteps
  deriving DecidableEq, Repr

/-- Invoke `Step` until PC is in the breakpoint set, at most `n` times. -/
def runSteps (bs : List Word) : Nat → State → Host.Outcome (State × RunEnd) Fault Refusal
  | 0, s => .next (s, .outOfSteps)
  | n + 1, s =>
    match step s with
    | .next t => if t.pc ∈ bs then .next (t, .atBreakpoint) else runSteps bs n t
    | .fault r => .fault r
    | .refused r => .refused r

/-- The host's run: with `CHECK_BEFORE_FIRST` PC is tested before the first step too. -/
def hostRun (p : Config.RunParams) (n : Nat) (s : State) : Host.Outcome (State × RunEnd) Fault Refusal :=
  if p.checkBeforeFirst = true ∧ s.pc ∈ p.breakpoints then .next (s, .atBreakpoint)
  else runSteps p.breakpoints n s

end Sys2Proof.Machine
end

