-- ==== Sys2Proof/Safety.lean ====
section
/-! DEFINITION. What claims about the machine are stated in: the invariant of every run, and, for each instruction,
which pieces of state it may change and where it stores, computed from the instruction's syntax by the rules of
spec/10_state.md and spec/40_operand_resolver.md. -/

namespace Sys2Proof.Machine

/-- The invariant: memory is in its canonical form. It is a fact about the model's way of writing memory down; the
machine itself has no illegal state (every 16-bit value is legal in every register, R24, R28). -/
abbrev State.Inv (s : State) : Prop := Memory.wf s.mem

/-- A run cannot stop here: `Step` has a next state (R94). -/
def CanStep (s : State) : Prop := ∃ t, step s = .next t

/-- `t` is reached from `s` by some number of steps. -/
inductive Steps (s : State) : State → Prop where
  | refl : Steps s s
  | tail {t u : State} : Steps s t → step t = .next u → Steps s u

/-- `t` is reached from `s` by exactly `k` steps. -/
inductive StepsIn (s : State) : Nat → State → Prop where
  | zero : StepsIn s 0 s
  | succ {k : Nat} {t u : State} : StepsIn s k t → step t = .next u → StepsIn s (k + 1) u

/-- A host's run tests PC in the state it has after `k` steps: after every step, and before the first one with
`CHECK_BEFORE_FIRST` (R16, R147). -/
def PcTested (p : Config.RunParams) (k : Nat) : Prop := 0 < k ∨ p.checkBeforeFirst = true

/-- The two states look alike: every register and every cell holds the same value. -/
def Alike (s t : State) : Prop :=
  (∀ r, s.reg r = t.reg r) ∧ ∀ addr, s.cell addr = t.cell addr

/-- What resolving an operand adds to SP: 1 for POP, -1 for PUSH, 0 for every other code (R69, R71). -/
def spShift : Operand → Word
  | .pop => 1
  | .push => 0xFFFF
  | .reg _ | .memReg _ | .memRegNext _ | .peek | .sp | .pc | .o | .memNext | .litNext | .lit _ => 0

/-- PC after the words of a basic instruction, from PC after its first word (R23, R24). -/
def pcAfter (a b : Operand) (s : State) : Word := s.pc + mask16 (a.trailing + b.trailing)

/-- SP after both operands of a basic instruction are resolved, A first (R25). -/
def spAfter (a b : Operand) (s : State) : Word := s.sp + spShift a + spShift b

/-- The whole effect of an instruction that writes `v` through `d` and whose operands are `a` and `b`: every general
register, SP, PC, O and every cell. PC, where `d` is not PC, is where resolving both operands left it (the
"Writes" lines of R96 to R106). `o` is O afterwards where `d` is not O, and `oDst` where it is: which of the two writes
of O stands there is the spec's decision D7 (R90, log entry 11). -/
def WritesResult (a b : Operand) (d : Desc) (v o oDst : Word) (s t : State) : Prop :=
  (∀ g : GReg, t.reg (generalReg g) = if d = .reg (generalReg g) then v else s.reg (generalReg g)) ∧
  (t.sp = if d = .reg .sp then v else spAfter a b s) ∧
  (t.pc = if d = .reg .pc then v else (fetchOperands a b s).st.pc) ∧
  (t.o = if d = .reg .o then oDst else o) ∧
  ∀ addr, t.cell addr = if d = .mem addr then v else s.cell addr

/-- The whole effect of a conditional whose condition is `c`: no register but PC and SP, no O and no cell changes, SP
only by the operands' own shifts; a true condition ends the step there and a false one skips (R109). -/
def IfEffect (a b : Operand) (c : Prop) (s t : State) : Prop :=
  (∀ g : GReg, t.reg (generalReg g) = s.reg (generalReg g)) ∧
  t.sp = spAfter a b s ∧
  t.o = s.o ∧
  (∀ addr, t.cell addr = s.cell addr) ∧
  (c → t = (fetchOperands a b s).st) ∧
  (¬ c → t = skip (fetchOperands a b s).st)

/-- The operands of a basic instruction, A first. -/
def basicOperands : Instr → Option (Operand × Operand)
  | .set a b | .add a b | .sub a b | .mul a b | .div a b | .mod a b | .shl a b | .shr a b => some (a, b)
  | .and a b | .bor a b | .xor a b | .ife a b | .ifn a b | .ifg a b | .ifb a b => some (a, b)
  | .jsr _ | .extNop00 _ => none
  | .extNop02 _ _ | .extNop04 _ _ | .extNop08 _ _ | .extNop10 _ _ | .extNop20 _ _ => none

/-- The operand of an extended instruction. -/
def extendedOperand : Instr → Option Operand
  | .jsr b | .extNop00 b => some b
  | .extNop02 _ b | .extNop04 _ b | .extNop08 _ b | .extNop10 _ b | .extNop20 _ b => some b
  | .set _ _ | .add _ _ | .sub _ _ | .mul _ _ | .div _ _ | .mod _ _ | .shl _ _ | .shr _ _ => none
  | .and _ _ | .bor _ _ | .xor _ _ | .ife _ _ | .ifn _ _ | .ifg _ _ | .ifb _ _ => none

/-- One of the six EXT_NOP rows, with its operand. -/
def extNopOperand : Instr → Option Operand
  | .extNop00 b => some b
  | .extNop02 _ b | .extNop04 _ b | .extNop08 _ b | .extNop10 _ b | .extNop20 _ b => some b
  | .set _ _ | .add _ _ | .sub _ _ | .mul _ _ | .div _ _ | .mod _ _ | .shl _ _ | .shr _ _ => none
  | .and _ _ | .bor _ _ | .xor _ _ | .ife _ _ | .ifn _ _ | .ifg _ _ | .ifb _ _ | .jsr _ => none

/-- The operand codes that resolve to a literal, 0x1F and 0x20-0x3F (R76, R77). -/
def isLiteral : Operand → Bool
  | .litNext | .lit _ => true
  | .reg _ | .memReg _ | .memRegNext _ | .pop | .peek | .push | .sp | .pc | .o | .memNext => false

/-- IFE, IFN, IFG or IFB. -/
def isIf : Instr → Bool
  | .ife _ _ | .ifn _ _ | .ifg _ _ | .ifb _ _ => true
  | .set _ _ | .add _ _ | .sub _ _ | .mul _ _ | .div _ _ | .mod _ _ | .shl _ _ | .shr _ _ => false
  | .and _ _ | .bor _ _ | .xor _ _ | .jsr _ | .extNop00 _ => false
  | .extNop02 _ _ | .extNop04 _ _ | .extNop08 _ _ | .extNop10 _ _ | .extNop20 _ _ => false

/-- The instruction writes O as its own side effect on some operands: ADD, SUB, MUL, DIV, SHL, SHR (R26). -/
def updatesO : Instr → Bool
  | .add _ _ | .sub _ _ | .mul _ _ | .div _ _ | .shl _ _ | .shr _ _ => true
  | .set _ _ | .mod _ _ | .and _ _ | .bor _ _ | .xor _ _ | .ife _ _ | .ifn _ _ | .ifg _ _ | .ifb _ _ => false
  | .jsr _ | .extNop00 _ => false
  | .extNop02 _ _ | .extNop04 _ _ | .extNop08 _ _ | .extNop10 _ _ | .extNop20 _ _ => false

/-- The one cell an instruction stores to, from the state `exec` starts in: a memory destination's address, or the cell
below the top of the stack for JSR's push (R38, R81, R118); none if it stores nothing. -/
def storeAddress (i : Instr) (s : State) : Option Word :=
  match i with
  | .jsr b => some ((resolve b s).2.sp - 1)
  | i =>
    match destination i with
    | some a =>
      match (resolve a s).1 with
      | .mem addr => some addr
      | .reg _ | .lit _ => none
    | none => none

end Sys2Proof.Machine
end

