-- ==== Sys2Proof/Safety/Pseudocode.lean ====
section
/-! DEFINITION. The spec's own pseudocode, line by line, on raw 6-bit codes and exact integers over registers and
memory held as functions (spec/40_operand_resolver.md R66-R81, spec/41_execution_cycle.md R84-R90,
spec/42_basic_alu.md, spec/43_conditional_skip.md, spec/44_extended.md). It is not the machine: `step` is. A refinement
claim says that `step`, with its decoded operands and its list memory, does what this text does. -/

namespace Sys2Proof.Pseudo

open Sys2Proof.Machine (Reg Desc)

/-- The registers and memory as the pseudocode writes them (R12). -/
@[ext] structure View where
  reg : Reg → Word
  mem : Word → Word

/-- `r <- v` (R12) -/
def View.set (p : View) (r : Reg) (v : Nat) : View :=
  { p with reg := fun r' => if r' = r then mask16 v else p.reg r' }

/-- `MemWrite(addr, 1, v)` (R12) -/
def View.store (p : View) (addr : Word) (v : Nat) : View :=
  { p with mem := fun addr' => if addr' = addr then mask16 v else p.mem addr' }

/-- `R[i]` for i in 0..7 (R19) -/
def generalIndex (n : Nat) : Reg :=
  match n with
  | 0 => .a
  | 1 => .b
  | 2 => .c
  | 3 => .x
  | 4 => .y
  | 5 => .z
  | 6 => .i
  | _ => .j

/-- `NextWord()` (R85) -/
def nextWord (p : View) : Word × View :=
  (p.mem (p.reg .pc), p.set .pc ((p.reg .pc).toNat + 1))

/-- `Resolve(code)` (R66-R77) -/
def resolve (code : Nat) (p : View) : Desc × View :=
  if code ≤ 0x07 then (.reg (generalIndex code), p)
  else if code ≤ 0x0F then (.mem (p.reg (generalIndex (code - 0x08))), p)
  else if code ≤ 0x17 then
    let n := nextWord p
    (.mem (mask16 ((n.2.reg (generalIndex (code - 0x10))).toNat + n.1.toNat)), n.2)
  else if code = 0x18 then (.mem (p.reg .sp), p.set .sp ((p.reg .sp).toNat + 1))
  else if code = 0x19 then (.mem (p.reg .sp), p)
  else if code = 0x1A then
    let p1 := p.set .sp ((p.reg .sp).toNat + 0xFFFF)
    (.mem (p1.reg .sp), p1)
  else if code = 0x1B then (.reg .sp, p)
  else if code = 0x1C then (.reg .pc, p)
  else if code = 0x1D then (.reg .o, p)
  else if code = 0x1E then
    let n := nextWord p
    (.mem n.1, n.2)
  else if code = 0x1F then
    let n := nextWord p
    (.lit n.1, n.2)
  else (.lit (mask16 (code - 0x20)), p)

/-- `OpRead(d)` (R80) -/
def opRead (d : Desc) (p : View) : Nat :=
  match d with
  | .reg r => (p.reg r).toNat
  | .mem addr => (p.mem addr).toNat
  | .lit v => v.toNat

/-- `OpWrite(d, v)` (R81) -/
def opWrite (d : Desc) (v : Nat) (p : View) : View :=
  match d with
  | .reg r => p.set r v
  | .mem addr => p.store addr v
  | .lit _ => p

/-- `nw(code)` (R56) -/
def nw (code : Nat) : Nat :=
  if (0x10 ≤ code ∧ code ≤ 0x17) ∨ code = 0x1E ∨ code = 0x1F then 1 else 0

/-- `Skip()` (R114) -/
def skip (p : View) : View :=
  let w := (p.mem (p.reg .pc)).toNat
  let p1 := p.set .pc ((p.reg .pc).toNat + 1)
  if w % 16 = 0 then p1.set .pc ((p1.reg .pc).toNat + nw (w / 1024))
  else p1.set .pc ((p1.reg .pc).toNat + nw (w / 16 % 64) + nw (w / 1024))

/-- `ExecuteIf(cond)` (R109) -/
def executeIf (cond : Bool) (p : View) : View := if cond then p else skip p

/-- `Execute(o, dA, dB)` (R88, R90, R96-R106, R110-R113) -/
def execute (o : Nat) (dA dB : Desc) (p : View) : View :=
  let a := opRead dA p
  let b := opRead dB p
  match o with
  | 0x1 => opWrite dA b p
  | 0x2 =>
    let q := opWrite dA ((a + b) % 0x10000) p
    if a + b > 0xFFFF then q.set .o 0x0001 else q
  | 0x3 =>
    if a < b then opWrite dA (0x10000 - (b - a)) (p.set .o 0xFFFF) else opWrite dA (a - b) p
  | 0x4 =>
    let q := opWrite dA (a * b % 0x10000) p
    if a * b > 0xFFFF then q.set .o (a * b / 0x10000) else q
  | 0x5 =>
    if b = 0 then (opWrite dA 0 p).set .o 0x0000
    else (opWrite dA (a / b % 0x10000) p).set .o (a * 0x10000 / b % 0x10000)
  | 0x6 => if b = 0 then opWrite dA 0 p else opWrite dA (a % b) p
  | 0x7 => (opWrite dA (a * 2 ^ b % 0x10000) p).set .o (a * 2 ^ b / 0x10000 % 0x10000)
  | 0x8 => (opWrite dA (a / 2 ^ b % 0x10000) p).set .o (a * 0x10000 / 2 ^ b % 0x10000)
  | 0x9 => opWrite dA (a &&& b) p
  | 0xA => opWrite dA (a ||| b) p
  | 0xB => opWrite dA (a ^^^ b) p
  | 0xC => executeIf (decide (a = b)) p
  | 0xD => executeIf (decide (a ≠ b)) p
  | 0xE => executeIf (decide (a > b)) p
  | _ => executeIf (decide (a &&& b ≠ 0)) p

/-- `ExecuteExt(s, dB)` (R118, R119) -/
def executeExt (s : Nat) (dB : Desc) (p : View) : View :=
  if s = 0x01 then
    let p1 := p.set .sp ((p.reg .sp).toNat + 0xFFFF)
    let p2 := p1.store (p1.reg .sp) (p1.reg .pc).toNat
    p2.set .pc (opRead dB p2)
  else p

/-- `Step()` (R84) -/
def step (p : View) : View :=
  let f := nextWord p
  let o := f.1.toNat % 16
  let a := f.1.toNat / 16 % 64
  let b := f.1.toNat / 1024
  if o = 0 then
    let rB := resolve b f.2
    executeExt a rB.1 rB.2
  else
    let rA := resolve a f.2
    let rB := resolve b rA.2
    execute o rA.1 rB.1 rB.2

/-- A machine state as the pseudocode sees it. -/
def view (s : Machine.State) : View := { reg := s.reg, mem := s.cell }

end Sys2Proof.Pseudo
end

