-- ==== Sys2Proof/Certificates/Slice0/Obligations.lean ====
section
/-! DEFINITION. What is claimed of the machine, one `Prop` per claim. `exec` starts where the instruction word has been
fetched and PC is past it, so `s.pc` in a claim about `exec` is the address of the first trailing word, if any. -/

open Sys2Proof Sys2Proof.Machine

/-! ## Encoding -/

/-- 30_encoding.md, "The instruction word and its fields": the three source formulas. -/
def Obligations.FieldsAreTheSourceFormulas : Prop :=
  ∀ w : Word, (opField w).setWidth 16 = w &&& 0xF ∧ (aField w).setWidth 16 = (w >>> 4) &&& 0x3F ∧
    (bField w).setWidth 16 = (w >>> 10) &&& 0x3F

/-- Decoding an encoded well-formed instruction gives it back, every operand at every value. The field roles of the
extended form, its EXT_NOP selectors and the register order are the spec's decisions D1, D2 and D3 (log entries 5, 6
and 7). -/
def Obligations.DecodeOfEncodeIsTheInstruction : Prop :=
  ∀ i : Instr, i.wf = true → decode (encode i) = i

/-- Every word decodes to a well-formed instruction whose encoding is that word: no word is illegal and none is a
second spelling. The EXT_NOP words are the spec's decision D2 (log entry 6). -/
def Obligations.EveryWordIsOneInstruction : Prop :=
  ∀ w : Word, (decode w).wf = true ∧ encode (decode w) = w

/-- The rows of the opcode table cover every word exactly once, and the decoder picks that row. The selector's
field and the EXT_NOP rows are the spec's decisions D1 and D2 (log entries 5 and 6). -/
def Obligations.EveryWordMatchesExactlyItsTableRow : Prop :=
  ∀ (w : Word) (k : Nat) (r : OpcodeRow), opcodeTable[k]? = some r →
    (w &&& r.mask = r.pattern ↔ k = (decode w).row)

/-- Words written out in the spec's text (30_encoding.md, 42, 43, 44), one at least of each family, decode to the
instructions the text names. The register order of `0x0401` is the spec's decision D3 (log entry 7), the extended
form D1 and D2 (log entries 5 and 6). -/
def Obligations.WordsOfTheSpecDecode : Prop :=
  decode 0x0401 = .set (.reg .a) (.reg .b) ∧ decode 0xC001 = .set (.reg .a) (.lit 16) ∧
  decode 0x7C01 = .set (.reg .a) .litNext ∧ decode 0x01E1 = .set .memNext (.reg .a) ∧
  decode 0x6DA1 = .set .push .sp ∧ decode 0x85C3 = .sub .pc (.lit 1) ∧ decode 0x75D2 = .add .o .o ∧
  decode 0x7D61 = .set (.memRegNext .i) .litNext ∧ decode 0x840C = .ife (.reg .a) (.lit 1) ∧
  decode 0x040F = .ifb (.reg .a) (.reg .b) ∧ decode 0x0010 = .jsr (.reg .a) ∧
  decode 0x0000 = .extNop00 (.reg .a) ∧ decode 0x7C20 = .extNop02 0x02 .litNext ∧
  decode 0x63F0 = .extNop20 0x3F .pop

/-- 30_encoding.md, instruction length: the first word alone gives the length, 1 to 3 words, at most 2 in the extended
form. Derived by the spec itself from its other rules; the field of the extended form's operand is its decision D1
(log entry 5). -/
def Obligations.LengthIsTheFirstWordAndItsTrailingWords : Prop :=
  ∀ w : Word, lenWord w = 1 + (decode w).trailing ∧ 1 ≤ lenWord w ∧ lenWord w ≤ 3 ∧
    (opField w = 0 → lenWord w ≤ 2)

/-- An instruction written in words, read back from the front of any list of words, gives itself, its trailing words
and the rest; a list too short for its trailing words is refused under that name. The encodings rest on the spec's
decisions D1, D2 and D3 (log entries 5, 6 and 7). -/
def Obligations.WordsOfAnInstructionReadBack : Prop :=
  ∀ (i : Instr) (tw rest : List Word), i.wf = true →
    (tw.length = i.trailing → decodeWords (encodeWords i tw ++ rest) = .ok (i, tw, rest)) ∧
    (tw.length < i.trailing → decodeWords (encodeWords i tw) = .error .missingTrailing)

/-! ## Memory and reset -/

/-- Every image a loader could leave is a memory of the model in canonical form, so a claim about all states is a claim
about every MEM_INIT (the spec's decision D10; log entry 2). -/
def Obligations.EveryImageIsACanonicalMemory : Prop :=
  ∀ f : Word → Word, ∃ m : Memory, Memory.wf m ∧ ∀ addr, Memory.read m addr = f addr

/-- Canonical memories that read alike are equal, so equal memories are equal data. -/
def Obligations.CanonicalMemoriesThatReadAlikeAreEqual : Prop :=
  ∀ m m' : Memory, Memory.wf m → Memory.wf m' → (∀ addr, Memory.read m addr = Memory.read m' addr) → m = m'

/-- 10_state.md, reset values: every register at reset, whatever image MEM_INIT is in memory. -/
def Obligations.ResetValues : Prop :=
  ∀ m : Memory, (∀ r : Reg, (State.resetWith m).reg r = if r = .sp then 0xFFFF else 0) ∧
    ∀ addr, (State.resetWith m).cell addr = Memory.read m addr

/-- 70_reset_and_hazards.md, reset vector (derived by the spec): the first step runs the word at address 0. -/
def Obligations.FirstStepFetchesAtZero : Prop :=
  ∀ m : Memory, step (State.resetWith m) = exec (decode (Memory.read m 0)) { State.resetWith m with pc := 1 }

/-- Loading writes each word of an image that names no address twice into its cell, every other cell holds 0 (the
model's choice, log entry 2), and no register changes. -/
def Obligations.BootHoldsTheImage : Prop :=
  ∀ image : List (Word × Word), (image.map Prod.fst).Nodup →
    (∀ p ∈ image, (boot image).cell p.1 = p.2) ∧
    (∀ addr, addr ∉ image.map Prod.fst → (boot image).cell addr = 0) ∧
    ∀ r, (boot image).reg r = State.reset.reg r

/-- ReadMem and ReadReg read the state's cell and register, and the host's WriteMem changes the one cell and no
register. -/
def Obligations.HostWriteThenRead : Prop :=
  ∀ (s : State) (addr v : Word),
    (∀ r, readReg s r = s.reg r) ∧ (∀ any, readMem s any = s.cell any) ∧
    readMem (writeMem s addr v) addr = v ∧
    (∀ other, other ≠ addr → readMem (writeMem s addr v) other = readMem s other) ∧
    ∀ r, readReg (writeMem s addr v) r = readReg s r

/-! ## Operands -/

/-- 40_operand_resolver.md, "Resolve(code)": no operand code writes memory or any register but PC and SP, PC moves by
the next word's fetch alone, and SP by codes 0x18 and 0x1A alone. -/
def Obligations.ResolvingChangesOnlyPcAndSp : Prop :=
  ∀ (c : BitVec 6) (s : State),
    (∀ r : Reg, r ≠ .pc → r ≠ .sp → (resolve (decodeOperand c) s).2.reg r = s.reg r) ∧
    (resolve (decodeOperand c) s).2.mem = s.mem ∧
    (resolve (decodeOperand c) s).2.pc = (if nw c = 1 then (nextWord s).2.pc else s.pc) ∧
    (c ≠ 0x18 → c ≠ 0x1A → (resolve (decodeOperand c) s).2.sp = s.sp)

/-- The codes that take no trailing word, by number: register, memory at register, POP, PEEK, PUSH, SP, PC, O, short
literal. SP wraps. -/
def Obligations.OneWordOperandCodesResolve : Prop :=
  ∀ s : State,
    (∀ n : BitVec 3, resolve (decodeOperand (0x00 + n.setWidth 6)) s = (.reg (generalReg (GReg.ofIndex n)), s)) ∧
    (∀ n : BitVec 3, resolve (decodeOperand (0x08 + n.setWidth 6)) s =
      (.mem (s.reg (generalReg (GReg.ofIndex n))), s)) ∧
    resolve (decodeOperand 0x18) s = (.mem s.sp, { s with sp := s.sp + 1 }) ∧
    resolve (decodeOperand 0x19) s = (.mem s.sp, s) ∧
    resolve (decodeOperand 0x1A) s = (.mem (s.sp - 1), { s with sp := s.sp - 1 }) ∧
    resolve (decodeOperand 0x1B) s = (.reg .sp, s) ∧
    resolve (decodeOperand 0x1C) s = (.reg .pc, s) ∧
    resolve (decodeOperand 0x1D) s = (.reg .o, s) ∧
    ∀ v : BitVec 5, resolve (decodeOperand (0x20 + v.setWidth 6)) s = (.lit (v.setWidth 16), s)

/-- The codes that take a trailing word, by number. That PC and the sum of register and next word wrap is the spec's
decision D4 and D5 (log entries 8 and 9). -/
def Obligations.NextWordOperandCodesResolve : Prop :=
  ∀ s : State,
    (∀ n : BitVec 3, resolve (decodeOperand (0x10 + n.setWidth 6)) s =
      (.mem (mask16 ((s.reg (generalReg (GReg.ofIndex n))).toNat + (s.cell s.pc).toNat)),
        { s with pc := s.pc + 1 })) ∧
    resolve (decodeOperand 0x1E) s = (.mem (s.cell s.pc), { s with pc := s.pc + 1 }) ∧
    resolve (decodeOperand 0x1F) s = (.lit (s.cell s.pc), { s with pc := s.pc + 1 })

/-- A is resolved wholly before B, both values are read once, after both (the spec's decision D6, log entry 10), and PC
and SP are then past the instruction's words and the operands' own shifts (PC's wrap is decision D4, log entry 8). -/
def Obligations.OperandsResolveInOrderThenAreRead : Prop :=
  ∀ (a b : Operand) (s : State),
    (fetchOperands a b s).dst = (resolve a s).1 ∧
    (fetchOperands a b s).st = (resolve b (resolve a s).2).2 ∧
    (fetchOperands a b s).a = opRead (resolve a s).1 (fetchOperands a b s).st ∧
    (fetchOperands a b s).b = opRead (resolve b (resolve a s).2).1 (fetchOperands a b s).st ∧
    (fetchOperands a b s).st.pc = pcAfter a b s ∧ (fetchOperands a b s).st.sp = spAfter a b s

/-- 40_operand_resolver.md, "OpRead(d)": a register's, a cell's, a literal's current value. -/
def Obligations.OperandReadsGiveTheCurrentValue : Prop :=
  ∀ s : State, (∀ r, opRead (.reg r) s = s.reg r) ∧ (∀ addr, opRead (.mem addr) s = s.cell addr) ∧
    ∀ v, opRead (.lit v) s = v

/-- With two trailing words the one at PC is A's and the one after it B's: here an absolute destination and a literal
source. PC's wrap is the spec's decision D4 (log entry 8). -/
def Obligations.FirstTrailingWordIsOperandAs : Prop :=
  ∀ s : State, ∃ t, exec (.set .memNext .litNext) s = .next t ∧ t.pc = s.pc + 2 ∧
    ∀ addr, t.cell addr = if addr = s.cell s.pc then s.cell (s.pc + 1) else s.cell addr

/-- The binding times one can observe: SP after PUSH or POP reads the updated SP; SET SP, POP keeps the popped value;
PEEK after PUSH names the pushed cell; PEEK or POP after POP names the cell above; a PC operand reads PC past all the
instruction's words (its wrap in the last clause is the spec's decision D4, log entry 8). -/
def Obligations.BindingTimesOfOperands : Prop :=
  ∀ s : State,
    (∃ t, exec (.set .push .sp) s = .next t ∧ t.sp = s.sp - 1 ∧ t.cell (s.sp - 1) = s.sp - 1) ∧
    (∃ t, exec (.set .pop .sp) s = .next t ∧ t.sp = s.sp + 1 ∧ t.cell s.sp = s.sp + 1) ∧
    (∃ t, exec (.set .sp .pop) s = .next t ∧ t.sp = s.cell s.sp) ∧
    (∃ t, exec (.set .push .peek) s = .next t ∧ Alike t { s with sp := s.sp - 1 }) ∧
    (∃ t, exec (.set .pop .peek) s = .next t ∧ t.sp = s.sp + 1 ∧ t.cell s.sp = s.cell (s.sp + 1)) ∧
    (∃ t, exec (.set .pop .pop) s = .next t ∧ t.sp = s.sp + 2 ∧ t.cell s.sp = s.cell (s.sp + 1)) ∧
    (∃ t, exec (.set (.reg .a) .pc) s = .next t ∧ t.a = s.pc) ∧
    ∃ t, exec (.set .memNext .pc) s = .next t ∧ t.cell (s.cell s.pc) = s.pc + 1

/-- SET PUSH, POP and SET POP, PUSH name one cell twice and change nothing (derived by the spec). -/
def Obligations.PushPopAliasesChangeNothing : Prop :=
  ∀ s : State, (∃ t, exec (.set .push .pop) s = .next t ∧ Alike t s) ∧
    ∃ t, exec (.set .pop .push) s = .next t ∧ Alike t s

/-- A pushed register comes back by a pop and SP is where it was, for every pair of general registers and every SP. -/
def Obligations.PushThenPopRestores : Prop :=
  ∀ (g h : GReg) (s : State), ∃ t u, exec (.set .push (.reg g)) s = .next t ∧
    exec (.set (.reg h) .pop) t = .next u ∧ u.sp = s.sp ∧ u.pc = s.pc ∧ u.o = s.o ∧
    ∀ k : GReg, u.reg (generalReg k) = if k = h then s.reg (generalReg g) else s.reg (generalReg k)

/-! ## Data movement, arithmetic and logic -/

/-- SET: b into the destination, for every operand form, and nothing else: PC, where it is not the destination, stays
past the instruction's words, where resolving the operands left it. The same PC clause holds in the ten claims below. -/
def Obligations.SetWritesTheSource : Prop :=
  ∀ (a b : Operand) (s : State), opField (encode (.set a b)) = 0x1 ∧
    ∃ t, exec (.set a b) s = .next t ∧
      WritesResult a b (resolve a s).1 (fetchOperands a b s).b s.o (fetchOperands a b s).b s t

/-- ADD: the sum modulo 2^16, and O = 1 on a carry, else unchanged. With destination O the carry's write, the later
one, stands: the spec's decision D7 (R90, log entry 11). -/
def Obligations.AddWritesSumAndCarry : Prop :=
  ∀ (a b : Operand) (s : State), opField (encode (.add a b)) = 0x2 ∧
    ∃ t, exec (.add a b) s = .next t ∧
      let x := (fetchOperands a b s).a
      let y := (fetchOperands a b s).b
      WritesResult a b (resolve a s).1 (x + y) (if x.toNat + y.toNat > 0xFFFF then 1 else s.o)
        (if x.toNat + y.toNat > 0xFFFF then 1 else x + y) s t

/-- SUB: the difference r as the rule computes it, and O = 0xFFFF on a borrow, else unchanged. That r is a - b modulo
2^16 is derived by the spec in R98. With destination O the difference, the later write, stands: the spec's decision D7
(R90, log entry 11). -/
def Obligations.SubWritesDifferenceAndBorrow : Prop :=
  ∀ (a b : Operand) (s : State), opField (encode (.sub a b)) = 0x3 ∧
    ∃ t, exec (.sub a b) s = .next t ∧
      let x := (fetchOperands a b s).a
      let y := (fetchOperands a b s).b
      let r := if x.toNat < y.toNat then mask16 (0x10000 - (y.toNat - x.toNat)) else mask16 (x.toNat - y.toNat)
      r = x - y ∧ WritesResult a b (resolve a s).1 r (if x.toNat < y.toNat then 0xFFFF else s.o) r s t

/-- MUL: the product's low word, and O = its high word where it exceeds 16 bits, else unchanged. With destination O the
high word's write, the later one, stands: the spec's decision D7 (R90, log entry 11). -/
def Obligations.MulWritesProductAndHighWord : Prop :=
  ∀ (a b : Operand) (s : State), opField (encode (.mul a b)) = 0x4 ∧
    ∃ t, exec (.mul a b) s = .next t ∧
      let x := (fetchOperands a b s).a
      let y := (fetchOperands a b s).b
      let high := mask16 (x.toNat * y.toNat / 2 ^ 16)
      WritesResult a b (resolve a s).1 (x * y) (if x.toNat * y.toNat > 0xFFFF then high else s.o)
        (if x.toNat * y.toNat > 0xFFFF then high else x * y) s t

/-- DIV: the quotient and, in O always, the 16 fraction bits; both 0 where the divisor is 0. That O's formula uses the
dividend before the write and floor division is the spec's decision D6 and D9 (log entries 10 and 13); that with
destination O the fraction, the later write, stands is its decision D7 (R90, log entry 11). -/
def Obligations.DivWritesQuotientAndFraction : Prop :=
  ∀ (a b : Operand) (s : State), opField (encode (.div a b)) = 0x5 ∧
    ∃ t, exec (.div a b) s = .next t ∧
      let x := (fetchOperands a b s).a
      let y := (fetchOperands a b s).b
      let q := if y = 0 then 0 else mask16 (x.toNat / y.toNat)
      let frac := if y = 0 then 0 else mask16 (x.toNat * 2 ^ 16 / y.toNat)
      WritesResult a b (resolve a s).1 q frac frac s t

/-- MOD: the remainder, 0 where the divisor is 0; O unchanged in both cases. -/
def Obligations.ModWritesRemainder : Prop :=
  ∀ (a b : Operand) (s : State), opField (encode (.mod a b)) = 0x6 ∧
    ∃ t, exec (.mod a b) s = .next t ∧
      let x := (fetchOperands a b s).a
      let y := (fetchOperands a b s).b
      let r := if y = 0 then 0 else mask16 (x.toNat % y.toNat)
      WritesResult a b (resolve a s).1 r s.o r s t

/-- SHL: the exact shift's low word, and in O always its next 16 bits. That nothing bounds the count is the spec's
decision D9 (log entry 13); that with destination O the next 16 bits, the later write, stand is its decision D7 (R90,
log entry 11). -/
def Obligations.ShlWritesLowAndNextBits : Prop :=
  ∀ (a b : Operand) (s : State), opField (encode (.shl a b)) = 0x7 ∧
    ∃ t, exec (.shl a b) s = .next t ∧
      let x := (fetchOperands a b s).a.toNat
      let n := (fetchOperands a b s).b.toNat
      let o := mask16 (x * 2 ^ n / 2 ^ 16)
      WritesResult a b (resolve a s).1 (mask16 (x * 2 ^ n)) o o s t

/-- SHR: the logical shift, and in O always the 16 bits below it. That nothing bounds the count is the spec's decision
D9 (log entry 13); that with destination O the 16 bits below, the later write, stand is its decision D7 (R90, log entry
11). -/
def Obligations.ShrWritesHighAndLostBits : Prop :=
  ∀ (a b : Operand) (s : State), opField (encode (.shr a b)) = 0x8 ∧
    ∃ t, exec (.shr a b) s = .next t ∧
      let x := (fetchOperands a b s).a.toNat
      let n := (fetchOperands a b s).b.toNat
      let o := mask16 (x * 2 ^ 16 / 2 ^ n)
      WritesResult a b (resolve a s).1 (mask16 (x / 2 ^ n)) o o s t

/-- AND: the bitwise and; O unchanged. -/
def Obligations.AndWritesConjunction : Prop :=
  ∀ (a b : Operand) (s : State), opField (encode (.and a b)) = 0x9 ∧
    ∃ t, exec (.and a b) s = .next t ∧
      let v := (fetchOperands a b s).a &&& (fetchOperands a b s).b
      WritesResult a b (resolve a s).1 v s.o v s t

/-- BOR: the bitwise or; O unchanged. -/
def Obligations.BorWritesDisjunction : Prop :=
  ∀ (a b : Operand) (s : State), opField (encode (.bor a b)) = 0xA ∧
    ∃ t, exec (.bor a b) s = .next t ∧
      let v := (fetchOperands a b s).a ||| (fetchOperands a b s).b
      WritesResult a b (resolve a s).1 v s.o v s t

/-- XOR: the bitwise exclusive or; O unchanged. -/
def Obligations.XorWritesExclusiveOr : Prop :=
  ∀ (a b : Operand) (s : State), opField (encode (.xor a b)) = 0xB ∧
    ∃ t, exec (.xor a b) s = .next t ∧
      let v := (fetchOperands a b s).a ^^^ (fetchOperands a b s).b
      WritesResult a b (resolve a s).1 v s.o v s t

/-- The spec's corner cases of SHL by the size of the count (derived by the spec from decision D9, log entry 13). -/
def Obligations.ShlByTheSizeOfTheCount : Prop :=
  ∀ x n : Word,
    (n.toNat = 0 → shlResult x n = x ∧ shlO x n = some 0) ∧
    (1 ≤ n.toNat ∧ n.toNat ≤ 15 → shlResult x n = x <<< n.toNat ∧ shlO x n = some (x >>> (16 - n.toNat))) ∧
    (n.toNat = 16 → shlResult x n = 0 ∧ shlO x n = some x) ∧
    (17 ≤ n.toNat ∧ n.toNat ≤ 31 → shlResult x n = 0 ∧ shlO x n = some (x <<< (n.toNat - 16))) ∧
    (32 ≤ n.toNat → shlResult x n = 0 ∧ shlO x n = some 0)

/-- The spec's corner cases of SHR by the size of the count (derived by the spec from decision D9, log entry 13). -/
def Obligations.ShrByTheSizeOfTheCount : Prop :=
  ∀ x n : Word,
    (n.toNat = 0 → shrResult x n = x ∧ shrO x n = some 0) ∧
    (1 ≤ n.toNat ∧ n.toNat ≤ 15 → shrResult x n = x >>> n.toNat ∧ shrO x n = some (x <<< (16 - n.toNat))) ∧
    (n.toNat = 16 → shrResult x n = 0 ∧ shrO x n = some x) ∧
    (17 ≤ n.toNat ∧ n.toNat ≤ 31 → shrResult x n = 0 ∧ shrO x n = some (x >>> (n.toNat - 16))) ∧
    (32 ≤ n.toNat → shrResult x n = 0 ∧ shrO x n = some 0)

/-! ## Conditionals and the skip -/

/-- IFE: the next instruction is skipped unless a = b, and nothing but PC (and SP by the operands) changes. -/
def Obligations.IfeSkipsUnlessEqual : Prop :=
  ∀ (a b : Operand) (s : State), opField (encode (.ife a b)) = 0xC ∧
    ∃ t, exec (.ife a b) s = .next t ∧
      IfEffect a b ((fetchOperands a b s).a = (fetchOperands a b s).b) s t

/-- IFN: the next instruction is skipped unless a ≠ b, and nothing but PC (and SP by the operands) changes. -/
def Obligations.IfnSkipsUnlessDifferent : Prop :=
  ∀ (a b : Operand) (s : State), opField (encode (.ifn a b)) = 0xD ∧
    ∃ t, exec (.ifn a b) s = .next t ∧
      IfEffect a b ((fetchOperands a b s).a ≠ (fetchOperands a b s).b) s t

/-- IFG: the next instruction is skipped unless a > b, unsigned, and nothing but PC (and SP by the operands)
changes. -/
def Obligations.IfgSkipsUnlessGreater : Prop :=
  ∀ (a b : Operand) (s : State), opField (encode (.ifg a b)) = 0xE ∧
    ∃ t, exec (.ifg a b) s = .next t ∧
      IfEffect a b ((fetchOperands a b s).a.toNat > (fetchOperands a b s).b.toNat) s t

/-- IFB: the next instruction is skipped unless a and b have a bit in common, and nothing but PC (and SP by the
operands) changes. -/
def Obligations.IfbSkipsUnlessCommonBit : Prop :=
  ∀ (a b : Operand) (s : State), opField (encode (.ifb a b)) = 0xF ∧
    ∃ t, exec (.ifb a b) s = .next t ∧
      IfEffect a b ((fetchOperands a b s).a &&& (fetchOperands a b s).b ≠ 0) s t

/-- The skip moves PC past the next instruction and its trailing words and does nothing else: SP, O, the general
registers and memory stay. PC's wrap and the field of an extended instruction's operand are the spec's decisions D4 and
D1 (log entries 8 and 5). -/
def Obligations.SkipMovesOnlyPcPastOneInstruction : Prop :=
  ∀ s : State, (skip s).pc = s.pc + mask16 (1 + (decode (s.cell s.pc)).trailing) ∧
    (∀ r : Reg, r ≠ .pc → (skip s).reg r = s.reg r) ∧ (skip s).mem = s.mem

/-- An instruction that is no JSR, no conditional and has no PC destination leaves PC exactly where skipping it would
have left it (the spec derives this; PC's wrap is decision D4, log entry 8, and that an extended instruction takes the
trailing word of its operand in bits 15:10, whatever its selector, is D1 and D2, log entries 5 and 6). -/
def Obligations.ExecutingAndSkippingAdvanceAlike : Prop :=
  ∀ s t : State, step s = .next t → destination (decode (s.cell s.pc)) ≠ some .pc →
    (∀ b, decode (s.cell s.pc) ≠ .jsr b) → isIf (decode (s.cell s.pc)) = false → t.pc = (skip s).pc

/-! ## Extended instructions -/

/-- JSR: SP down, the PC past the whole instruction in the new top cell, then the operand's value, read after the push,
into PC; nothing else. The field roles, the wrap of the pushed PC and the read after the push are the spec's decisions
D1, D4 and D8 (log entries 5, 8 and 12). -/
def Obligations.JsrPushesThenJumps : Prop :=
  ∀ (b : Operand) (s : State), ∃ t, exec (.jsr b) s = .next t ∧
    let top := s.sp + spShift b - 1
    let back := s.pc + mask16 b.trailing
    t.sp = top ∧ t.o = s.o ∧ (∀ g : GReg, t.reg (generalReg g) = s.reg (generalReg g)) ∧
    (∀ addr, t.cell addr = if addr = top then back else s.cell addr) ∧
    t.pc = match (resolve b s).1 with
      | .reg .sp => top
      | .reg .pc => back
      | .reg r => s.reg r
      | .mem addr => if addr = top then back else s.cell addr
      | .lit v => v

/-- A JSR and then SET PC, POP comes back to the word after the JSR with SP as the JSR's operand left it, for every
operand and every SP (derived by the spec; decisions D1, D4 and D8, log entries 5, 8 and 12). -/
def Obligations.PopIntoPcReturnsFromJsr : Prop :=
  ∀ (b : Operand) (s t : State), exec (.jsr b) s = .next t →
    ∃ u, exec (.set .pc .pop) t = .next u ∧ u.pc = s.pc + mask16 b.trailing ∧ u.sp = s.sp + spShift b ∧
      u.o = s.o ∧
      ∀ g : GReg, u.reg (generalReg g) = s.reg (generalReg g)

/-- EXT_NOP, all six rows: PC past the operand's trailing word, SP by POP or PUSH, and nothing else, whatever the
selector (the spec's decisions D1, D2 and D4, log entries 5, 6 and 8). -/
def Obligations.ExtNopOnlyResolvesItsOperand : Prop :=
  ∀ (i : Instr) (b : Operand) (s : State), extNopOperand i = some b →
    ∃ t, exec i s = .next t ∧ t.pc = s.pc + mask16 b.trailing ∧ t.sp = s.sp + spShift b ∧
      (∀ r : Reg, r ≠ .pc → r ≠ .sp → t.reg r = s.reg r) ∧ ∀ addr, t.cell addr = s.cell addr

/-! ## The step and whole-machine rules -/

/-- A step runs the instruction at PC: PC past the instruction word, then `exec` of what the word decodes to, and
nothing else around it. That PC goes from 0xFFFF to 0x0000 is the spec's decision D4 (R24, R85, log entry 8). -/
def Obligations.StepRunsTheDecodedInstruction : Prop :=
  ∀ s : State, step s = exec (decode (s.cell s.pc)) { s with pc := s.pc + 1 }

/-- Where the cell at PC holds the word of a well-formed instruction, the step is that instruction's `exec`. PC's wrap
is the spec's decision D4 (log entry 8). -/
def Obligations.StepRunsTheEncodedInstruction : Prop :=
  ∀ (i : Instr) (s : State), i.wf = true → s.cell s.pc = encode i → step s = exec i { s with pc := s.pc + 1 }

/-- Totality: every state has exactly one successor. -/
def Obligations.EveryStateHasOneSuccessor : Prop :=
  ∀ s : State, ∃ t, step s = .next t ∧ ∀ u, step s = .next u → u = t

/-- The invariant holds at reset, for the empty memory and for every canonical image. -/
def Obligations.InvariantHoldsAtReset : Prop :=
  State.reset.Inv ∧ ∀ m : Memory, Memory.wf m → (State.resetWith m).Inv

/-- Every step keeps the canonical form of memory, from every state that has it. -/
def Obligations.EveryStepKeepsTheInvariant : Prop :=
  ∀ s t : State, s.Inv → step s = .next t → t.Inv

/-- From any loaded image, a run never leaves the invariant and never stops. -/
def Obligations.RunsFromAnyImageStaySafe : Prop :=
  ∀ (image : List (Word × Word)) (s : State), Steps (boot image) s → s.Inv ∧ CanStep s

/-- `step` does what the spec's pseudocode does, with its raw codes, exact integers and functional memory, from every
state. The pseudocode carries the spec's decisions D1 to D9 (log entries 5 to 13). -/
def Obligations.StepFollowsThePseudocode : Prop :=
  ∀ s : State, ∃ t, step s = .next t ∧ Pseudo.view t = Pseudo.step (Pseudo.view s)

/-- The next state depends on nothing but the registers and what memory reads as, not on how memory is written down:
states that look alike step to states that look alike. -/
def Obligations.StepDependsOnlyOnRegistersAndCells : Prop :=
  ∀ s s' t : State, Alike s s' → step s = .next t → ∃ t', step s' = .next t' ∧ Alike t t'

/-- An instruction stores to no cell but the one its own syntax computes, and to none at all where it computes none.
That an EXT_NOP stores nothing is the spec's decision D2 (log entry 6). -/
def Obligations.OnlyTheComputedCellIsStored : Prop :=
  ∀ (i : Instr) (s t : State), exec i s = .next t →
    ∀ addr, storeAddress i s ≠ some addr → t.cell addr = s.cell addr

/-- O changes only by ADD, SUB, MUL, DIV, SHL, SHR, or as the destination. That an EXT_NOP leaves it is the spec's
decision D2 (log entry 6). -/
def Obligations.OnlyArithmeticOrDestinationChangesO : Prop :=
  ∀ (i : Instr) (s t : State), exec i s = .next t → updatesO i = false → destination i ≠ some .o → t.o = s.o

/-- A general register changes only as the destination: no instruction writes one implicitly, and the conditionals,
JSR and EXT_NOP write none (EXT_NOP by the spec's decision D2, log entry 6). -/
def Obligations.GeneralRegistersChangeOnlyAsDestination : Prop :=
  ∀ (i : Instr) (s t : State) (g : GReg), exec i s = .next t → destination i ≠ some (.reg g) →
    t.reg (generalReg g) = s.reg (generalReg g)

/-- SP changes only by POP and PUSH operands, by a JSR, or as the destination. That an EXT_NOP resolves its operand, and
so moves SP by a POP or PUSH, is the spec's decision D2 (R119, R120, log entry 6). -/
def Obligations.SpChangesOnlyByStackUseOrDestination : Prop :=
  ∀ (i : Instr) (s t : State), exec i s = .next t → destination i ≠ some .sp →
    (∀ a b, basicOperands i = some (a, b) → t.sp = s.sp + spShift a + spShift b) ∧
    (∀ b, i = .jsr b → t.sp = s.sp + spShift b - 1) ∧
    ∀ b, extNopOperand i = some b → t.sp = s.sp + spShift b

/-- SUB PC, 1 jumps to itself from every address and changes nothing else, but for O at 0xFFFF where it borrows
(derived by the spec; that PC is read as 0x0000 there is decision D4, log entry 8). -/
def Obligations.SubPcOneIsASelfLoop : Prop :=
  ∀ s : State, s.cell s.pc = 0x85C3 → ∃ t, step s = .next t ∧
    Alike t { s with o := if s.pc = 0xFFFF then 0xFFFF else s.o }

/-- A zero word is a one-word EXT_NOP: PC goes one on, modulo 2^16, and nothing changes (the spec's decisions D2 and D4,
log entries 6 and 8). -/
def Obligations.ZeroWordOnlyAdvancesPc : Prop :=
  ∀ s : State, s.cell s.pc = 0 → step s = .next { s with pc := s.pc + 1 }

/-! ## The host boundary -/

/-- A host's run steps until PC, tested after every step and before the first one with CHECK_BEFORE_FIRST, is in the
set: the end state is `k` steps from the start, no earlier tested state has PC in the set, the end state has if the run
ends at a breakpoint, and otherwise it has not and `k` is the host's bound `n`. The two parameters are decision D16; the
bound is the model's own, so that a run has an end (log entry 16). -/
def Obligations.HostRunEndsAtABreakpointOrOutOfSteps : Prop :=
  ∀ (p : Config.RunParams) (n : Nat) (s : State), ∃ k t e, hostRun p n s = .next (t, e) ∧ k ≤ n ∧ StepsIn s k t ∧
    (∀ j u, j < k → StepsIn s j u → PcTested p j → u.pc ∉ p.breakpoints) ∧
    (e = .atBreakpoint → PcTested p k ∧ t.pc ∈ p.breakpoints) ∧
    (e = .outOfSteps → k = n ∧ (PcTested p k → t.pc ∉ p.breakpoints))

/-- A step may signal the diagnostic exactly where its instruction has a destination and that is a literal, and may
always stay silent. Such a step writes no general register and no cell, changes SP by the source's own shift alone and O
by the opcode's own rule alone, and PC goes past the instruction (decision D11, log entry 15). -/
def Obligations.DiagnosticOnlyForADiscardedWrite : Prop :=
  ∀ s : State, diagnosticAllowed s none = true ∧
    (diagnosticAllowed s (some .literalWriteIgnored) = true ↔
      ∃ a, destination (decode (s.cell s.pc)) = some a ∧ isLiteral a = true) ∧
    (diagnosticAllowed s (some .literalWriteIgnored) = true → ∃ t, step s = .next t ∧
      (∀ g : GReg, t.reg (generalReg g) = s.reg (generalReg g)) ∧ (∀ addr, t.cell addr = s.cell addr) ∧
      (∀ a b, basicOperands (decode (s.cell s.pc)) = some (a, b) → t.sp = s.sp + spShift b) ∧
      (updatesO (decode (s.cell s.pc)) = false → t.o = s.o) ∧ t.pc = (skip s).pc)
end

