-- ==== Sys2Proof/Laws/Decode.lean ====
section
/-! SUPPORT. The fields of a packed word, the operand codes both ways, and the trailing-word predicate. -/

namespace Sys2Proof

/-! ## Fields -/

@[simp] theorem opField_packWord (b a : BitVec 6) (o : BitVec 4) : opField (packWord b a o) = o := by
  ext i hi
  simp only [opField, packWord, BitVec.getElem_extractLsb', BitVec.getLsbD_append, Nat.zero_add]
  simp [hi]

@[simp] theorem aField_packWord (b a : BitVec 6) (o : BitVec 4) : aField (packWord b a o) = a := by
  ext i hi
  simp only [aField, packWord, BitVec.getElem_extractLsb', BitVec.getLsbD_append]
  simp [show ¬ 4 + i < 4 by omega, hi]

@[simp] theorem bField_packWord (b a : BitVec 6) (o : BitVec 4) : bField (packWord b a o) = b := by
  ext i hi
  simp only [bField, packWord, BitVec.getElem_extractLsb', BitVec.getLsbD_append]
  simp [show ¬ 10 + i < 4 by omega, show ¬ 10 + i - 4 < 6 by omega, show 10 + i - 4 - 6 = i by omega, hi]

/-- A word is its three fields. -/
theorem packWord_fields (w : Word) : packWord (bField w) (aField w) (opField w) = w := by
  apply BitVec.eq_of_getLsbD_eq
  intro i hi
  simp only [packWord, opField, aField, bField, BitVec.getLsbD_append, BitVec.getLsbD_extractLsb']
  by_cases h4 : i < 4
  · simp [h4]
  · by_cases h6 : i - 4 < 6
    · simp [h4, h6, show 4 + (i - 4) = i by omega]
    · simp [h4, h6, show 10 + (i - 4 - 6) = i by omega, show i - 4 - 6 < 6 by omega]

/-! ## Operand codes -/

@[simp] theorem GReg.ofIndex_index (r : GReg) : GReg.ofIndex r.index = r := by cases r <;> rfl

@[simp] theorem decodeOperand_code (p : Operand) : decodeOperand p.code = p := by
  cases p with
  | reg r => cases r <;> decide
  | memReg r => cases r <;> decide
  | memRegNext r => cases r <;> decide
  | lit v => revert v; decide
  | pop | peek | push | sp | pc | o | memNext | litNext => decide

@[simp] theorem code_decodeOperand (c : BitVec 6) : (decodeOperand c).code = c := by
  revert c; decide

/-- The codes that fetch a next word are the codes `nw` counts (R56). -/
@[simp] theorem nw_code (p : Operand) : nw p.code = p.trailing := by
  cases p with
  | reg r => cases r <;> decide
  | memReg r => cases r <;> decide
  | memRegNext r => cases r <;> decide
  | lit v => revert v; decide
  | pop | peek | push | sp | pc | o | memNext | litNext => decide

theorem trailing_decodeOperand (c : BitVec 6) : (decodeOperand c).trailing = nw c := by
  rw [← nw_code, code_decodeOperand]

/-! ## Lengths of packed words -/

theorem lenWord_basic {o : BitVec 4} (h : o ≠ 0) (b a : Operand) :
    lenWord (packWord b.code a.code o) = 1 + (a.trailing + b.trailing) := by
  unfold lenWord
  rw [opField_packWord, if_neg h, aField_packWord, bField_packWord, nw_code, nw_code, Nat.add_assoc]

theorem lenWord_extended (b : Operand) (s : BitVec 6) : lenWord (packWord b.code s 0) = 1 + b.trailing := by
  simp [lenWord]

end Sys2Proof
end

