-- ==== Sys2Proof/Laws/State.lean ====
section
/-! SUPPORT. What each update of the state does to each field, so that no proof unfolds a record update. -/

namespace Sys2Proof.Machine

/-! ## Reading a register by name -/

@[simp] theorem State.reg_a (s : State) : s.reg .a = s.a := rfl
@[simp] theorem State.reg_b (s : State) : s.reg .b = s.b := rfl
@[simp] theorem State.reg_c (s : State) : s.reg .c = s.c := rfl
@[simp] theorem State.reg_x (s : State) : s.reg .x = s.x := rfl
@[simp] theorem State.reg_y (s : State) : s.reg .y = s.y := rfl
@[simp] theorem State.reg_z (s : State) : s.reg .z = s.z := rfl
@[simp] theorem State.reg_i (s : State) : s.reg .i = s.i := rfl
@[simp] theorem State.reg_j (s : State) : s.reg .j = s.j := rfl
@[simp] theorem State.reg_pc (s : State) : s.reg .pc = s.pc := rfl
@[simp] theorem State.reg_sp (s : State) : s.reg .sp = s.sp := rfl
@[simp] theorem State.reg_o (s : State) : s.reg .o = s.o := rfl

/-! ## setReg -/

/-- Everything a register write does to the registers. -/
theorem State.reg_setReg (s : State) (r r' : Reg) (v : Word) :
    (s.setReg r v).reg r' = if r = r' then v else s.reg r' := by
  cases r <;> cases r' <;> rfl

@[simp] theorem State.setReg_mem (s : State) (r : Reg) (v : Word) : (s.setReg r v).mem = s.mem := by
  cases r <;> rfl

@[simp] theorem State.setReg_cell (s : State) (r : Reg) (v addr : Word) :
    (s.setReg r v).cell addr = s.cell addr := by
  simp [State.cell]

@[simp] theorem State.setReg_a (s : State) (r : Reg) (v : Word) :
    (s.setReg r v).a = if r = .a then v else s.a := s.reg_setReg r .a v
@[simp] theorem State.setReg_b (s : State) (r : Reg) (v : Word) :
    (s.setReg r v).b = if r = .b then v else s.b := s.reg_setReg r .b v
@[simp] theorem State.setReg_c (s : State) (r : Reg) (v : Word) :
    (s.setReg r v).c = if r = .c then v else s.c := s.reg_setReg r .c v
@[simp] theorem State.setReg_x (s : State) (r : Reg) (v : Word) :
    (s.setReg r v).x = if r = .x then v else s.x := s.reg_setReg r .x v
@[simp] theorem State.setReg_y (s : State) (r : Reg) (v : Word) :
    (s.setReg r v).y = if r = .y then v else s.y := s.reg_setReg r .y v
@[simp] theorem State.setReg_z (s : State) (r : Reg) (v : Word) :
    (s.setReg r v).z = if r = .z then v else s.z := s.reg_setReg r .z v
@[simp] theorem State.setReg_i (s : State) (r : Reg) (v : Word) :
    (s.setReg r v).i = if r = .i then v else s.i := s.reg_setReg r .i v
@[simp] theorem State.setReg_j (s : State) (r : Reg) (v : Word) :
    (s.setReg r v).j = if r = .j then v else s.j := s.reg_setReg r .j v
@[simp] theorem State.setReg_pc (s : State) (r : Reg) (v : Word) :
    (s.setReg r v).pc = if r = .pc then v else s.pc := s.reg_setReg r .pc v
@[simp] theorem State.setReg_sp (s : State) (r : Reg) (v : Word) :
    (s.setReg r v).sp = if r = .sp then v else s.sp := s.reg_setReg r .sp v
@[simp] theorem State.setReg_o (s : State) (r : Reg) (v : Word) :
    (s.setReg r v).o = if r = .o then v else s.o := s.reg_setReg r .o v

/-! ## setCell -/

@[simp] theorem State.setCell_a (s : State) (addr v : Word) : (s.setCell addr v).a = s.a := rfl
@[simp] theorem State.setCell_b (s : State) (addr v : Word) : (s.setCell addr v).b = s.b := rfl
@[simp] theorem State.setCell_c (s : State) (addr v : Word) : (s.setCell addr v).c = s.c := rfl
@[simp] theorem State.setCell_x (s : State) (addr v : Word) : (s.setCell addr v).x = s.x := rfl
@[simp] theorem State.setCell_y (s : State) (addr v : Word) : (s.setCell addr v).y = s.y := rfl
@[simp] theorem State.setCell_z (s : State) (addr v : Word) : (s.setCell addr v).z = s.z := rfl
@[simp] theorem State.setCell_i (s : State) (addr v : Word) : (s.setCell addr v).i = s.i := rfl
@[simp] theorem State.setCell_j (s : State) (addr v : Word) : (s.setCell addr v).j = s.j := rfl
@[simp] theorem State.setCell_pc (s : State) (addr v : Word) : (s.setCell addr v).pc = s.pc := rfl
@[simp] theorem State.setCell_sp (s : State) (addr v : Word) : (s.setCell addr v).sp = s.sp := rfl
@[simp] theorem State.setCell_o (s : State) (addr v : Word) : (s.setCell addr v).o = s.o := rfl
@[simp] theorem State.setCell_mem (s : State) (addr v : Word) :
    (s.setCell addr v).mem = Memory.write s.mem addr v := rfl

/-! ## advance -/

@[simp] theorem State.advance_a (s : State) (n : Nat) : (s.advance n).a = s.a := rfl
@[simp] theorem State.advance_b (s : State) (n : Nat) : (s.advance n).b = s.b := rfl
@[simp] theorem State.advance_c (s : State) (n : Nat) : (s.advance n).c = s.c := rfl
@[simp] theorem State.advance_x (s : State) (n : Nat) : (s.advance n).x = s.x := rfl
@[simp] theorem State.advance_y (s : State) (n : Nat) : (s.advance n).y = s.y := rfl
@[simp] theorem State.advance_z (s : State) (n : Nat) : (s.advance n).z = s.z := rfl
@[simp] theorem State.advance_i (s : State) (n : Nat) : (s.advance n).i = s.i := rfl
@[simp] theorem State.advance_j (s : State) (n : Nat) : (s.advance n).j = s.j := rfl
@[simp] theorem State.advance_pc (s : State) (n : Nat) : (s.advance n).pc = s.pc + mask16 n := rfl
@[simp] theorem State.advance_sp (s : State) (n : Nat) : (s.advance n).sp = s.sp := rfl
@[simp] theorem State.advance_o (s : State) (n : Nat) : (s.advance n).o = s.o := rfl
@[simp] theorem State.advance_mem (s : State) (n : Nat) : (s.advance n).mem = s.mem := rfl

/-! ## pushSp -/

@[simp] theorem State.pushSp_a (s : State) : s.pushSp.a = s.a := rfl
@[simp] theorem State.pushSp_b (s : State) : s.pushSp.b = s.b := rfl
@[simp] theorem State.pushSp_c (s : State) : s.pushSp.c = s.c := rfl
@[simp] theorem State.pushSp_x (s : State) : s.pushSp.x = s.x := rfl
@[simp] theorem State.pushSp_y (s : State) : s.pushSp.y = s.y := rfl
@[simp] theorem State.pushSp_z (s : State) : s.pushSp.z = s.z := rfl
@[simp] theorem State.pushSp_i (s : State) : s.pushSp.i = s.i := rfl
@[simp] theorem State.pushSp_j (s : State) : s.pushSp.j = s.j := rfl
@[simp] theorem State.pushSp_pc (s : State) : s.pushSp.pc = s.pc := rfl
@[simp] theorem State.pushSp_sp (s : State) : s.pushSp.sp = s.sp - 1 := rfl
@[simp] theorem State.pushSp_o (s : State) : s.pushSp.o = s.o := rfl
@[simp] theorem State.pushSp_mem (s : State) : s.pushSp.mem = s.mem := rfl

/-! ## popSp -/

@[simp] theorem State.popSp_a (s : State) : s.popSp.a = s.a := rfl
@[simp] theorem State.popSp_b (s : State) : s.popSp.b = s.b := rfl
@[simp] theorem State.popSp_c (s : State) : s.popSp.c = s.c := rfl
@[simp] theorem State.popSp_x (s : State) : s.popSp.x = s.x := rfl
@[simp] theorem State.popSp_y (s : State) : s.popSp.y = s.y := rfl
@[simp] theorem State.popSp_z (s : State) : s.popSp.z = s.z := rfl
@[simp] theorem State.popSp_i (s : State) : s.popSp.i = s.i := rfl
@[simp] theorem State.popSp_j (s : State) : s.popSp.j = s.j := rfl
@[simp] theorem State.popSp_pc (s : State) : s.popSp.pc = s.pc := rfl
@[simp] theorem State.popSp_sp (s : State) : s.popSp.sp = s.sp + 1 := rfl
@[simp] theorem State.popSp_o (s : State) : s.popSp.o = s.o := rfl
@[simp] theorem State.popSp_mem (s : State) : s.popSp.mem = s.mem := rfl

@[simp] theorem State.advance_cell (s : State) (n : Nat) (addr : Word) : (s.advance n).cell addr = s.cell addr := rfl
@[simp] theorem State.pushSp_cell (s : State) (addr : Word) : s.pushSp.cell addr = s.cell addr := rfl
@[simp] theorem State.popSp_cell (s : State) (addr : Word) : s.popSp.cell addr = s.cell addr := rfl

@[simp] theorem State.setCell_reg (s : State) (addr v : Word) (r : Reg) :
    (s.setCell addr v).reg r = s.reg r := by
  cases r <;> rfl

/-! ## The general registers -/

@[simp] theorem generalReg_ne_pc (g : GReg) : generalReg g ≠ .pc := by cases g <;> decide
@[simp] theorem generalReg_ne_sp (g : GReg) : generalReg g ≠ .sp := by cases g <;> decide
@[simp] theorem generalReg_ne_o (g : GReg) : generalReg g ≠ .o := by cases g <;> decide

theorem generalReg_injective : Function.Injective generalReg := by
  intro g h e
  cases g <;> cases h <;> first | rfl | cases e

/-- Every register is a general register, PC, SP or O. -/
theorem reg_cases (r : Reg) : (∃ g, r = generalReg g) ∨ r = .pc ∨ r = .sp ∨ r = .o := by
  cases r
  case a => exact .inl ⟨.a, rfl⟩
  case b => exact .inl ⟨.b, rfl⟩
  case c => exact .inl ⟨.c, rfl⟩
  case x => exact .inl ⟨.x, rfl⟩
  case y => exact .inl ⟨.y, rfl⟩
  case z => exact .inl ⟨.z, rfl⟩
  case i => exact .inl ⟨.i, rfl⟩
  case j => exact .inl ⟨.j, rfl⟩
  case pc => exact .inr (.inl rfl)
  case sp => exact .inr (.inr (.inl rfl))
  case o => exact .inr (.inr (.inr rfl))

/-- Two states with the same registers and memory are the same state. -/
theorem State.ext_reg {s t : State} (hr : ∀ r, s.reg r = t.reg r) (hm : s.mem = t.mem) : s = t := by
  cases s; cases t
  have ha := hr .a; have hb := hr .b; have hc := hr .c; have hx := hr .x
  have hy := hr .y; have hz := hr .z; have hi := hr .i; have hj := hr .j
  have hp := hr .pc; have hs := hr .sp; have ho := hr .o
  simp only [State.reg] at *
  subst ha hb hc hx hy hz hi hj hp hs ho hm
  rfl

/-! ## Reset -/

@[simp] theorem State.resetWith_a (m : Memory) : (State.resetWith m).a = 0 := rfl
@[simp] theorem State.resetWith_b (m : Memory) : (State.resetWith m).b = 0 := rfl
@[simp] theorem State.resetWith_c (m : Memory) : (State.resetWith m).c = 0 := rfl
@[simp] theorem State.resetWith_x (m : Memory) : (State.resetWith m).x = 0 := rfl
@[simp] theorem State.resetWith_y (m : Memory) : (State.resetWith m).y = 0 := rfl
@[simp] theorem State.resetWith_z (m : Memory) : (State.resetWith m).z = 0 := rfl
@[simp] theorem State.resetWith_i (m : Memory) : (State.resetWith m).i = 0 := rfl
@[simp] theorem State.resetWith_j (m : Memory) : (State.resetWith m).j = 0 := rfl
@[simp] theorem State.resetWith_pc (m : Memory) : (State.resetWith m).pc = 0 := rfl
@[simp] theorem State.resetWith_sp (m : Memory) : (State.resetWith m).sp = 0xFFFF := rfl
@[simp] theorem State.resetWith_o (m : Memory) : (State.resetWith m).o = 0 := rfl
@[simp] theorem State.resetWith_mem (m : Memory) : (State.resetWith m).mem = m := rfl

end Sys2Proof.Machine
end

