-- ==== Sys2Proof/Laws/Memory.lean ====
section
/-! SUPPORT. The laws of memory: a read after a write, and the canonical form kept by every operation. -/

namespace Sys2Proof.Machine

/-! ## Reading after an update -/

theorem Memory.read_erase (m : Memory) (a b : Word) :
    Memory.read (Memory.erase m a) b = if b = a then Memory.unlisted else Memory.read m b := by
  induction m with
  | nil => simp [Memory.erase, Memory.read]
  | cons p rest ih =>
    obtain ⟨k, v⟩ := p
    unfold Memory.erase at ih ⊢
    by_cases hk : k = a.toNat
    · subst hk
      simp only [List.filter_cons, ne_eq, not_true_eq_false, decide_false, Bool.false_eq_true, if_false, ih]
      by_cases hb : b = a
      · simp [hb]
      · have : ¬ a.toNat = b.toNat := fun h => hb (BitVec.eq_of_toNat_eq h.symm)
        simp [hb, Memory.read, this]
    · simp only [List.filter_cons, ne_eq, hk, not_false_eq_true, decide_true, if_true, Memory.read, ih]
      by_cases hkb : k = b.toNat
      · have : b ≠ a := by rintro rfl; exact hk hkb
        simp [hkb, this]
      · simp [hkb]

theorem Memory.read_insert (m : Memory) (a b v : Word) :
    Memory.read (Memory.insert a.toNat v m) b = if b = a then v else Memory.read m b := by
  have hba : a.toNat = b.toNat ↔ b = a := ⟨fun h => BitVec.eq_of_toNat_eq h.symm, fun h => by rw [h]⟩
  induction m with
  | nil => simp [Memory.insert, Memory.read, hba]
  | cons p rest ih =>
    obtain ⟨k, x⟩ := p
    unfold Memory.insert
    split
    · rename_i hlt
      simp only [Memory.read, ih]
      by_cases hkb : k = b.toNat
      · have : b ≠ a := by rintro rfl; omega
        simp [hkb, this]
      · simp [hkb]
    · split
      · rename_i hk
        subst hk
        simp only [Memory.read, hba]
        by_cases hb : b = a <;> simp [hb]
      · simp only [Memory.read, hba]

/-- Everything a write does to what memory reads as: the cell written holds the word, every other cell is unchanged. -/
theorem Memory.read_write (m : Memory) (a b v : Word) :
    Memory.read (Memory.write m a v) b = if b = a then v else Memory.read m b := by
  unfold Memory.write
  split
  · rename_i h; rw [Memory.read_erase, h]
  · exact Memory.read_insert m a b v

@[simp] theorem State.setCell_cell (s : State) (addr v b : Word) :
    (s.setCell addr v).cell b = if b = addr then v else s.cell b :=
  Memory.read_write s.mem addr b v

/-! ## The canonical form -/

theorem Memory.wf_nil : Memory.wf [] := by simp [Memory.wf]

theorem Memory.wf_erase {m : Memory} (h : Memory.wf m) (a : Word) : Memory.wf (Memory.erase m a) :=
  ⟨h.1.filter _, fun p hp => h.2 p (List.mem_of_mem_filter hp)⟩

/-- What `insert` can put in the list. -/
theorem Memory.mem_insert {k : Nat} {v : Word} {m : Memory} {p : Nat × Word} (h : p ∈ Memory.insert k v m) :
    p = (k, v) ∨ p ∈ m := by
  induction m with
  | nil => simpa [Memory.insert] using h
  | cons q rest ih =>
    obtain ⟨k', v'⟩ := q
    unfold Memory.insert at h
    split at h
    · rcases List.mem_cons.1 h with h | h
      · exact .inr (by simp [h])
      · rcases ih h with h | h
        · exact .inl h
        · exact .inr (List.mem_cons_of_mem _ h)
    · split at h
      · rcases List.mem_cons.1 h with h | h
        · exact .inl h
        · exact .inr (List.mem_cons_of_mem _ h)
      · rcases List.mem_cons.1 h with h | h
        · exact .inl h
        · exact .inr h

theorem Memory.pairwise_insert {k : Nat} {v : Word} {m : Memory}
    (h : m.Pairwise (fun p q => p.1 < q.1)) : (Memory.insert k v m).Pairwise (fun p q => p.1 < q.1) := by
  induction m with
  | nil => simp [Memory.insert]
  | cons q rest ih =>
    obtain ⟨k', v'⟩ := q
    obtain ⟨hq, hr⟩ := List.pairwise_cons.1 h
    unfold Memory.insert
    split
    · rename_i hlt
      refine List.pairwise_cons.2 ⟨fun p hp => ?_, ih hr⟩
      rcases Memory.mem_insert hp with rfl | hp
      · exact hlt
      · exact hq p hp
    · rename_i hge
      split
      · rename_i hk
        subst hk
        exact List.pairwise_cons.2 ⟨hq, hr⟩
      · rename_i hne
        refine List.pairwise_cons.2 ⟨fun p hp => ?_, h⟩
        have hlt : k < k' := by omega
        rcases List.mem_cons.1 hp with rfl | hp
        · exact hlt
        · exact lt_trans hlt (hq p hp)

/-- A write keeps the canonical form. -/
theorem Memory.wf_write {m : Memory} (h : Memory.wf m) (a v : Word) : Memory.wf (Memory.write m a v) := by
  unfold Memory.write
  split
  · exact Memory.wf_erase h a
  · rename_i hv
    refine ⟨Memory.pairwise_insert h.1, fun p hp => ?_⟩
    rcases Memory.mem_insert hp with rfl | hp
    · exact ⟨a.isLt, hv⟩
    · exact h.2 p hp

theorem Memory.wf_writeWords {m : Memory} (h : Memory.wf m) (a : Word) (ws : List Word) :
    Memory.wf (Memory.writeWords m a ws) := by
  induction ws generalizing m a with
  | nil => exact h
  | cons w ws ih => exact ih (Memory.wf_write h a w) (a + 1)

/-- The image a loader leaves is canonical. -/
theorem boot_wf (image : List (Word × Word)) : Memory.wf (boot image).mem := by
  suffices h : ∀ s : State, Memory.wf s.mem → Memory.wf (image.foldl (fun s p => writeMem s p.1 p.2) s).mem from
    h State.reset Memory.wf_nil
  induction image with
  | nil => exact fun s h => h
  | cons p rest ih => exact fun s h => ih _ (Memory.wf_write h p.1 p.2)

end Sys2Proof.Machine
end

