-- ==== Sys2Proof/Laws/Operands.lean ====
section
/-! SUPPORT. What each shared operation can do, once: fetching, resolving, reading and writing operands, pushing,
skipping, and the two write orders. Proofs about instructions cite these and do not unfold the operations. -/

namespace Sys2Proof.Machine

/-! ## Resolving -/

/-- Everything resolving does to the state: PC past the trailing word, SP by the code's shift, nothing else. -/
theorem resolve_state (a : Operand) (s : State) :
    (resolve a s).2 = { s with pc := s.pc + mask16 a.trailing, sp := s.sp + spShift a } := by
  cases a <;> simp [resolve, nextWord, State.advance, State.popSp, State.pushSp, spShift, Operand.trailing,
    BitVec.sub_eq_add_neg]

@[simp] theorem resolve_mem (a : Operand) (s : State) : (resolve a s).2.mem = s.mem := by rw [resolve_state]
@[simp] theorem resolve_o (a : Operand) (s : State) : (resolve a s).2.o = s.o := by rw [resolve_state]
@[simp] theorem resolve_cell (a : Operand) (s : State) (addr : Word) : (resolve a s).2.cell addr = s.cell addr := by
  simp [State.cell]
@[simp] theorem resolve_pc (a : Operand) (s : State) : (resolve a s).2.pc = s.pc + mask16 a.trailing := by
  rw [resolve_state]
@[simp] theorem resolve_sp (a : Operand) (s : State) : (resolve a s).2.sp = s.sp + spShift a := by rw [resolve_state]
@[simp] theorem resolve_general (a : Operand) (s : State) (g : GReg) :
    (resolve a s).2.reg (generalReg g) = s.reg (generalReg g) := by
  rw [resolve_state]; cases g <;> rfl

/-- A register other than PC and SP is unchanged by resolving. -/
theorem resolve_reg (a : Operand) (s : State) {r : Reg} (hp : r ≠ .pc) (hs : r ≠ .sp) :
    (resolve a s).2.reg r = s.reg r := by
  rcases reg_cases r with ⟨g, rfl⟩ | rfl | rfl | rfl
  · exact resolve_general a s g
  · exact absurd rfl hp
  · exact absurd rfl hs
  · exact resolve_o a s

/-- The one operand code that resolves to PC as a register. -/
theorem resolve_eq_pc {a : Operand} {s : State} (h : (resolve a s).1 = .reg .pc) : a = .pc := by
  cases a <;> simp [resolve] at h ⊢

/-- The one operand code that resolves to SP as a register. -/
theorem resolve_eq_sp {a : Operand} {s : State} (h : (resolve a s).1 = .reg .sp) : a = .sp := by
  cases a <;> simp [resolve] at h ⊢

/-- The one operand code that resolves to O as a register. -/
theorem resolve_eq_o {a : Operand} {s : State} (h : (resolve a s).1 = .reg .o) : a = .o := by
  cases a <;> simp [resolve] at h ⊢

/-- The one operand code that resolves to a general register. -/
theorem resolve_eq_general {a : Operand} {s : State} {g : GReg} (h : (resolve a s).1 = .reg (generalReg g)) :
    a = .reg g := by
  cases a
  case reg r => rw [generalReg_injective (Desc.reg.inj h)]
  all_goals cases g <;> simp [resolve, generalReg] at h

/-- The operand codes that resolve to a literal. -/
theorem resolve_eq_lit (a : Operand) (s : State) : (∃ v, (resolve a s).1 = .lit v) ↔ isLiteral a = true := by
  cases a <;> simp [resolve, isLiteral]

/-! ## A basic instruction's operands -/

theorem fetchOperands_dst (a b : Operand) (s : State) : (fetchOperands a b s).dst = (resolve a s).1 := rfl

/-- Everything resolving both operands does to the state. -/
theorem fetchOperands_st (a b : Operand) (s : State) :
    (fetchOperands a b s).st = { s with pc := pcAfter a b s, sp := spAfter a b s } := by
  have h : (fetchOperands a b s).st = (resolve b (resolve a s).2).2 := rfl
  rw [h, resolve_state, resolve_state]
  simp only [pcAfter, spAfter, mask16, BitVec.ofNat_add, BitVec.add_assoc]

@[simp] theorem fetchOperands_mem (a b : Operand) (s : State) : (fetchOperands a b s).st.mem = s.mem := by
  rw [fetchOperands_st]
@[simp] theorem fetchOperands_o (a b : Operand) (s : State) : (fetchOperands a b s).st.o = s.o := by
  rw [fetchOperands_st]
@[simp] theorem fetchOperands_pc (a b : Operand) (s : State) : (fetchOperands a b s).st.pc = pcAfter a b s := by
  rw [fetchOperands_st]
@[simp] theorem fetchOperands_sp (a b : Operand) (s : State) : (fetchOperands a b s).st.sp = spAfter a b s := by
  rw [fetchOperands_st]
@[simp] theorem fetchOperands_cell (a b : Operand) (s : State) (addr : Word) :
    (fetchOperands a b s).st.cell addr = s.cell addr := by
  simp [State.cell]
@[simp] theorem fetchOperands_general (a b : Operand) (s : State) (g : GReg) :
    (fetchOperands a b s).st.reg (generalReg g) = s.reg (generalReg g) := by
  rw [fetchOperands_st]; cases g <;> rfl

/-! ## Writing an operand and O -/

/-- Everything an operand write does to the registers. -/
theorem opWrite_reg (d : Desc) (v : Word) (s : State) (r : Reg) :
    (opWrite d v s).reg r = if d = .reg r then v else s.reg r := by
  cases d <;> simp [opWrite, State.reg_setReg]

/-- Everything an operand write does to memory. -/
theorem opWrite_cell (d : Desc) (v : Word) (s : State) (addr : Word) :
    (opWrite d v s).cell addr = if d = .mem addr then v else s.cell addr := by
  cases d <;> simp [opWrite, eq_comm]

/-- An operand write keeps the canonical form of memory. -/
theorem opWrite_wf (d : Desc) (v : Word) {s : State} (h : Memory.wf s.mem) : Memory.wf (opWrite d v s).mem := by
  cases d with
  | reg r => simpa only [opWrite, State.setReg_mem] using h
  | mem addr => exact Memory.wf_write h addr v
  | lit c => exact h

theorem writeO_reg (o : Option Word) (s : State) (r : Reg) :
    (writeO o s).reg r = if r = .o then o.getD s.o else s.reg r := by
  cases o with
  | none => by_cases h : r = .o <;> simp [writeO, h]
  | some v => simp [writeO, State.reg_setReg, eq_comm]

@[simp] theorem writeO_mem (o : Option Word) (s : State) : (writeO o s).mem = s.mem := by
  cases o <;> simp [writeO]

@[simp] theorem writeO_cell (o : Option Word) (s : State) (addr : Word) : (writeO o s).cell addr = s.cell addr := by
  simp [State.cell]

/-- Everything the order "destination, then O" does to the registers: a written O wins over the destination. -/
theorem dstThenO_reg (f : Fetched) (v : Word) (o : Option Word) (r : Reg) :
    (dstThenO f v o).reg r =
      if r = .o then o.getD (if f.dst = .reg .o then v else f.st.o)
      else if f.dst = .reg r then v else f.st.reg r := by
  rw [dstThenO, writeO_reg, opWrite_reg]
  by_cases h : r = .o
  · have := opWrite_reg f.dst v f.st .o
    simp only [State.reg_o] at this
    simp [h, this]
  · simp [h]

theorem dstThenO_cell (f : Fetched) (v : Word) (o : Option Word) (addr : Word) :
    (dstThenO f v o).cell addr = if f.dst = .mem addr then v else f.st.cell addr := by
  rw [dstThenO, writeO_cell, opWrite_cell]

theorem dstThenO_wf (f : Fetched) (v : Word) (o : Option Word) (h : Memory.wf f.st.mem) :
    Memory.wf (dstThenO f v o).mem := by
  rw [dstThenO, writeO_mem]; exact opWrite_wf f.dst v h

/-- Everything the order "O, then destination" does to the registers: the destination wins over a written O. -/
theorem oThenDst_reg (f : Fetched) (v : Word) (o : Option Word) (r : Reg) :
    (oThenDst f v o).reg r =
      if f.dst = .reg r then v else if r = .o then o.getD f.st.o else f.st.reg r := by
  rw [oThenDst, opWrite_reg, writeO_reg]

theorem oThenDst_cell (f : Fetched) (v : Word) (o : Option Word) (addr : Word) :
    (oThenDst f v o).cell addr = if f.dst = .mem addr then v else f.st.cell addr := by
  rw [oThenDst, opWrite_cell, writeO_cell]

theorem oThenDst_wf (f : Fetched) (v : Word) (o : Option Word) (h : Memory.wf f.st.mem) :
    Memory.wf (oThenDst f v o).mem := by
  rw [oThenDst]; exact opWrite_wf f.dst v (by rwa [writeO_mem])

/-- The order "destination, then O" as a whole effect. -/
theorem dstThenO_writes (a b : Operand) (s : State) (v : Word) (o : Option Word) :
    WritesResult a b (resolve a s).1 v (o.getD s.o) (o.getD v) s (dstThenO (fetchOperands a b s) v o) := by
  refine ⟨fun g => ?_, ?_, ?_, ?_, fun addr => ?_⟩
  · simp [dstThenO_reg, fetchOperands_dst]
  · rw [← State.reg_sp, dstThenO_reg]; simp [fetchOperands_dst]
  · rw [← State.reg_pc, dstThenO_reg]; simp [fetchOperands_dst]
  · rw [← State.reg_o, dstThenO_reg]; cases o <;> simp [fetchOperands_dst]
  · simp [dstThenO_cell, fetchOperands_dst]

/-- The order "O, then destination" as a whole effect. -/
theorem oThenDst_writes (a b : Operand) (s : State) (v : Word) (o : Option Word) :
    WritesResult a b (resolve a s).1 v (o.getD s.o) v s (oThenDst (fetchOperands a b s) v o) := by
  refine ⟨fun g => ?_, ?_, ?_, ?_, fun addr => ?_⟩
  · simp [oThenDst_reg, fetchOperands_dst]
  · rw [← State.reg_sp, oThenDst_reg]; simp [fetchOperands_dst]
  · rw [← State.reg_pc, oThenDst_reg]; simp [fetchOperands_dst]
  · rw [← State.reg_o, oThenDst_reg]; simp [fetchOperands_dst]
  · simp [oThenDst_cell, fetchOperands_dst]

/-! ## Pushing and skipping -/

/-- Everything a push does: SP one down, the word in the new top cell, nothing else. -/
theorem pushWord_eq (v : Word) (s : State) :
    pushWord v s = { s with sp := s.sp - 1, mem := Memory.write s.mem (s.sp - 1) v } := rfl

theorem pushWord_cell (v : Word) (s : State) (addr : Word) :
    (pushWord v s).cell addr = if addr = s.sp - 1 then v else s.cell addr := by
  simp [pushWord]

theorem pushWord_wf (v : Word) {s : State} (h : Memory.wf s.mem) : Memory.wf (pushWord v s).mem :=
  Memory.wf_write h _ v

/-- Everything a skip does: PC past the next instruction, nothing else. -/
theorem skip_eq (s : State) : skip s = { s with pc := s.pc + mask16 (lenWord (s.cell s.pc)) } := rfl

/-- Everything a conditional's end does: PC alone may change. -/
theorem skipUnless_eq (c : Bool) (s : State) :
    skipUnless c s = { s with pc := if c then s.pc else s.pc + mask16 (lenWord (s.cell s.pc)) } := by
  cases c <;> rfl

/-- A conditional's end as a whole effect. -/
theorem skipUnless_effect (a b : Operand) (c : Prop) [Decidable c] (s : State) :
    IfEffect a b c s (skipUnless (decide c) (fetchOperands a b s).st) := by
  refine ⟨fun g => ?_, ?_, ?_, fun addr => ?_, fun h => ?_, fun h => ?_⟩
  · rw [← fetchOperands_general a b s g, skipUnless_eq]; cases g <;> rfl
  · simp [skipUnless_eq]
  · simp [skipUnless_eq]
  · rw [← fetchOperands_cell a b s addr, skipUnless_eq]; rfl
  · simp [skipUnless, h]
  · simp [skipUnless, h]

end Sys2Proof.Machine
end

