-- ==== Sys2Proof/Laws/Exec.lean ====
section
/-! SUPPORT. What an instruction can do, once: each meaning as an equation over the shared operations, and the four
shapes of a next state. An invariant is proved by these four cases, not by unfolding 22 meanings. -/

namespace Sys2Proof.Machine

/-! ## Each meaning as an equation -/

theorem exec_set (a b : Operand) (s : State) :
    exec (.set a b) s = .next (dstThenO (fetchOperands a b s) (fetchOperands a b s).b none) := rfl

theorem exec_add (a b : Operand) (s : State) :
    exec (.add a b) s =
      .next (dstThenO (fetchOperands a b s) (addResult (fetchOperands a b s).a (fetchOperands a b s).b)
        (addO (fetchOperands a b s).a (fetchOperands a b s).b)) := rfl

theorem exec_mul (a b : Operand) (s : State) :
    exec (.mul a b) s =
      .next (dstThenO (fetchOperands a b s) (mulResult (fetchOperands a b s).a (fetchOperands a b s).b)
        (mulO (fetchOperands a b s).a (fetchOperands a b s).b)) := rfl

theorem exec_div (a b : Operand) (s : State) :
    exec (.div a b) s =
      .next (dstThenO (fetchOperands a b s) (divResult (fetchOperands a b s).a (fetchOperands a b s).b)
        (divO (fetchOperands a b s).a (fetchOperands a b s).b)) := rfl

theorem exec_shl (a b : Operand) (s : State) :
    exec (.shl a b) s =
      .next (dstThenO (fetchOperands a b s) (shlResult (fetchOperands a b s).a (fetchOperands a b s).b)
        (shlO (fetchOperands a b s).a (fetchOperands a b s).b)) := rfl

theorem exec_shr (a b : Operand) (s : State) :
    exec (.shr a b) s =
      .next (dstThenO (fetchOperands a b s) (shrResult (fetchOperands a b s).a (fetchOperands a b s).b)
        (shrO (fetchOperands a b s).a (fetchOperands a b s).b)) := rfl

theorem exec_sub (a b : Operand) (s : State) :
    exec (.sub a b) s =
      .next (oThenDst (fetchOperands a b s) (subResult (fetchOperands a b s).a (fetchOperands a b s).b)
        (subO (fetchOperands a b s).a (fetchOperands a b s).b)) := rfl

theorem exec_mod (a b : Operand) (s : State) :
    exec (.mod a b) s =
      .next (dstThenO (fetchOperands a b s) (modResult (fetchOperands a b s).a (fetchOperands a b s).b) none) := rfl

theorem exec_and (a b : Operand) (s : State) :
    exec (.and a b) s =
      .next (dstThenO (fetchOperands a b s) ((fetchOperands a b s).a &&& (fetchOperands a b s).b) none) := rfl

theorem exec_bor (a b : Operand) (s : State) :
    exec (.bor a b) s =
      .next (dstThenO (fetchOperands a b s) ((fetchOperands a b s).a ||| (fetchOperands a b s).b) none) := rfl

theorem exec_xor (a b : Operand) (s : State) :
    exec (.xor a b) s =
      .next (dstThenO (fetchOperands a b s) ((fetchOperands a b s).a ^^^ (fetchOperands a b s).b) none) := rfl

theorem exec_ife (a b : Operand) (s : State) :
    exec (.ife a b) s =
      .next (skipUnless (decide ((fetchOperands a b s).a = (fetchOperands a b s).b)) (fetchOperands a b s).st) := rfl

theorem exec_ifn (a b : Operand) (s : State) :
    exec (.ifn a b) s =
      .next (skipUnless (decide ((fetchOperands a b s).a ≠ (fetchOperands a b s).b)) (fetchOperands a b s).st) := rfl

theorem exec_ifg (a b : Operand) (s : State) :
    exec (.ifg a b) s =
      .next (skipUnless (decide ((fetchOperands a b s).a.toNat > (fetchOperands a b s).b.toNat))
        (fetchOperands a b s).st) := rfl

theorem exec_ifb (a b : Operand) (s : State) :
    exec (.ifb a b) s =
      .next (skipUnless (decide ((fetchOperands a b s).a &&& (fetchOperands a b s).b ≠ 0))
        (fetchOperands a b s).st) := rfl

theorem exec_jsr (b : Operand) (s : State) :
    exec (.jsr b) s = .next ((pushWord (resolve b s).2.pc (resolve b s).2).setReg .pc
      (opRead (resolve b s).1 (pushWord (resolve b s).2.pc (resolve b s).2))) := rfl

theorem exec_extNop {i : Instr} {b : Operand} (h : extNopOperand i = some b) (s : State) :
    exec i s = .next (resolve b s).2 := by
  cases i <;> simp only [extNopOperand, Option.some.injEq, reduceCtorEq] at h <;> subst h <;> rfl

/-! ## The four shapes of a next state -/

/-- If `exec` answers `t`, then `t` is a result written with its effect on O, the end of a conditional, a call, or the
resolution of an EXT_NOP's operand. -/
theorem exec_cases {i : Instr} {s t : State} (h : exec i s = .next t) :
    (∃ a b v o, basicOperands i = some (a, b) ∧ destination i = some a ∧ isIf i = false ∧
      (updatesO i = false → o = none) ∧
      (t = dstThenO (fetchOperands a b s) v o ∨ t = oThenDst (fetchOperands a b s) v o)) ∨
    (∃ a b c, basicOperands i = some (a, b) ∧ destination i = none ∧ isIf i = true ∧ updatesO i = false ∧
      t = skipUnless c (fetchOperands a b s).st) ∨
    (∃ b, i = .jsr b ∧
      t = (pushWord (resolve b s).2.pc (resolve b s).2).setReg .pc
        (opRead (resolve b s).1 (pushWord (resolve b s).2.pc (resolve b s).2))) ∨
    (∃ b, extNopOperand i = some b ∧ t = (resolve b s).2) := by
  cases i
  case sub a b => cases h; exact .inl ⟨a, b, _, _, rfl, rfl, rfl, by simp [updatesO], .inr rfl⟩
  case set a b | add a b | mul a b | div a b | mod a b | shl a b | shr a b | and a b | bor a b | xor a b =>
    cases h; exact .inl ⟨a, b, _, _, rfl, rfl, rfl, by simp [updatesO], .inl rfl⟩
  case ife a b | ifn a b | ifg a b | ifb a b => cases h; exact .inr (.inl ⟨a, b, _, rfl, rfl, rfl, rfl, rfl⟩)
  case jsr b => cases h; exact .inr (.inr (.inl ⟨b, rfl, rfl⟩))
  case extNop00 b | extNop02 b | extNop04 b | extNop08 b | extNop10 b | extNop20 b =>
    cases h; exact .inr (.inr (.inr ⟨_, rfl, rfl⟩))

/-- A run of exactly `k` steps is a run. -/
theorem steps_of_stepsIn {s t : State} {k : Nat} (h : StepsIn s k t) : Steps s t := by
  induction h with
  | zero => exact .refl
  | succ _ hs ih => exact .tail ih hs

end Sys2Proof.Machine
end

