-- ==== Sys2Proof/Laws/PerInstr.lean ====
section
/-! SUPPORT. Facts about every instruction as syntax, one lemma per constructor. -/

namespace Sys2Proof.Laws.Length

/-- The first word alone gives the instruction's length: 1 and its trailing words (R57). -/
def Statement (i : Instr) : Prop := lenWord (encode i) = 1 + i.trailing

theorem set (a b : Operand) : Statement (.set a b) := lenWord_basic (by decide) b a
theorem add (a b : Operand) : Statement (.add a b) := lenWord_basic (by decide) b a
theorem sub (a b : Operand) : Statement (.sub a b) := lenWord_basic (by decide) b a
theorem mul (a b : Operand) : Statement (.mul a b) := lenWord_basic (by decide) b a
theorem div (a b : Operand) : Statement (.div a b) := lenWord_basic (by decide) b a
theorem mod (a b : Operand) : Statement (.mod a b) := lenWord_basic (by decide) b a
theorem shl (a b : Operand) : Statement (.shl a b) := lenWord_basic (by decide) b a
theorem shr (a b : Operand) : Statement (.shr a b) := lenWord_basic (by decide) b a
theorem and (a b : Operand) : Statement (.and a b) := lenWord_basic (by decide) b a
theorem bor (a b : Operand) : Statement (.bor a b) := lenWord_basic (by decide) b a
theorem xor (a b : Operand) : Statement (.xor a b) := lenWord_basic (by decide) b a
theorem ife (a b : Operand) : Statement (.ife a b) := lenWord_basic (by decide) b a
theorem ifn (a b : Operand) : Statement (.ifn a b) := lenWord_basic (by decide) b a
theorem ifg (a b : Operand) : Statement (.ifg a b) := lenWord_basic (by decide) b a
theorem ifb (a b : Operand) : Statement (.ifb a b) := lenWord_basic (by decide) b a
theorem jsr (b : Operand) : Statement (.jsr b) := lenWord_extended b 0x01
theorem extNop00 (b : Operand) : Statement (.extNop00 b) := lenWord_extended b 0x00
theorem extNop02 (s : BitVec 6) (b : Operand) : Statement (.extNop02 s b) := lenWord_extended b s
theorem extNop04 (s : BitVec 6) (b : Operand) : Statement (.extNop04 s b) := lenWord_extended b s
theorem extNop08 (s : BitVec 6) (b : Operand) : Statement (.extNop08 s b) := lenWord_extended b s
theorem extNop10 (s : BitVec 6) (b : Operand) : Statement (.extNop10 s b) := lenWord_extended b s
theorem extNop20 (s : BitVec 6) (b : Operand) : Statement (.extNop20 s b) := lenWord_extended b s

end Sys2Proof.Laws.Length
end

