-- ==== Sys2Proof/Text.lean ====
section
/-! DEFINITION. The spec's notation for instructions (spec/30_encoding.md R62, R63, decision D17): how an instruction
and its trailing words are written, and which operand a number in an operand place stands for. Notation only; the
machine does not use it. -/

namespace Sys2Proof

/-- A general register's name. -/
def GReg.text : GReg → String
  | .a => "A"
  | .b => "B"
  | .c => "C"
  | .x => "X"
  | .y => "Y"
  | .z => "Z"
  | .i => "I"
  | .j => "J"

/-- A hexadecimal digit. -/
def hexDigit (n : Nat) : String :=
  match n % 16 with
  | 0 => "0"
  | 1 => "1"
  | 2 => "2"
  | 3 => "3"
  | 4 => "4"
  | 5 => "5"
  | 6 => "6"
  | 7 => "7"
  | 8 => "8"
  | 9 => "9"
  | 10 => "A"
  | 11 => "B"
  | 12 => "C"
  | 13 => "D"
  | 14 => "E"
  | _ => "F"

/-- A word as `0xNNNN` (R9). -/
def wordText (w : Word) : String :=
  "0x" ++ hexDigit (w.toNat / 4096) ++ hexDigit (w.toNat / 256) ++ hexDigit (w.toNat / 16) ++ hexDigit w.toNat

/-- An operand, with the trailing word it takes if it takes one. A next-word literal that a short one could hold is
marked `long`, since the number alone would stand for the short one. -/
def Operand.text (p : Operand) (w : Word) : String :=
  match p with
  | .reg r => r.text
  | .memReg r => "[" ++ r.text ++ "]"
  | .memRegNext r => "[" ++ wordText w ++ "+" ++ r.text ++ "]"
  | .pop => "POP"
  | .peek => "PEEK"
  | .push => "PUSH"
  | .sp => "SP"
  | .pc => "PC"
  | .o => "O"
  | .memNext => "[" ++ wordText w ++ "]"
  | .litNext => if w.toNat ≤ 0x1F then "long " ++ wordText w else wordText w
  | .lit v => wordText (v.setWidth 16)

/-- `<mnemonic> <A>, <B>`, the first trailing word A's where A takes one (R58). -/
def basicText (mnemonic : String) (a b : Operand) (tw : List Word) : String :=
  mnemonic ++ " " ++ a.text (tw.headD 0) ++ ", " ++ b.text ((tw.drop a.trailing).headD 0)

/-- `EXT_NOP <selector>, <B>` -/
def extNopText (s : BitVec 6) (b : Operand) (tw : List Word) : String :=
  "EXT_NOP " ++ wordText (s.setWidth 16) ++ ", " ++ b.text (tw.headD 0)

/-- An instruction with its trailing words, in the spec's notation. -/
def Instr.text (i : Instr) (tw : List Word) : String :=
  match i with
  | .set a b => basicText "SET" a b tw
  | .add a b => basicText "ADD" a b tw
  | .sub a b => basicText "SUB" a b tw
  | .mul a b => basicText "MUL" a b tw
  | .div a b => basicText "DIV" a b tw
  | .mod a b => basicText "MOD" a b tw
  | .shl a b => basicText "SHL" a b tw
  | .shr a b => basicText "SHR" a b tw
  | .and a b => basicText "AND" a b tw
  | .bor a b => basicText "BOR" a b tw
  | .xor a b => basicText "XOR" a b tw
  | .ife a b => basicText "IFE" a b tw
  | .ifn a b => basicText "IFN" a b tw
  | .ifg a b => basicText "IFG" a b tw
  | .ifb a b => basicText "IFB" a b tw
  | .jsr b => "JSR " ++ b.text (tw.headD 0)
  | .extNop00 b => extNopText 0x00 b tw
  | .extNop02 s b => extNopText s b tw
  | .extNop04 s b => extNopText s b tw
  | .extNop08 s b => extNopText s b tw
  | .extNop10 s b => extNopText s b tw
  | .extNop20 s b => extNopText s b tw

/-- What a number `n` in an operand place stands for: the short literal up to 0x1F, else the next-word one (R63). -/
def numberOperand (n : Word) : Operand × List Word :=
  if n.toNat ≤ 0x1F then (.lit (n.setWidth 5), []) else (.litNext, [n])

/-- What `long n` stands for: the next-word literal, whatever `n` is (R63). -/
def longOperand (n : Word) : Operand × List Word := (.litNext, [n])

end Sys2Proof
end

