-- ==== Sys2Proof/Tests/Slice0.lean ====
section
/-! SUPPORT. The model's own tests: ill-formed terms refused, every constructor decoded from a word written out from the
spec's encoding, single steps whose results are the spec's own vectors (spec/95_test_vectors.md, cited by id), and a
witness for the hypotheses and the clauses of every obligation that has them. -/

namespace Sys2Proof.Tests

open Sys2Proof.Machine

/-! ## Helpers -/

/-- `s` with the words `ws` from PC on. -/
def placed (s : State) (ws : List Word) : State := { s with mem := Memory.writeWords s.mem s.pc ws }

/-- The state after one step, if there is one. -/
def after (s : State) : Option State :=
  match step s with
  | .next t => some t
  | .fault _ => none
  | .refused _ => none

/-- What a test looks at of the state after one step. -/
def seen {α : Type} (s : State) (view : State → α) : Option α := (after s).map view

/-! ## WellFormed: an ill-formed term for each check -/

theorem test_wf_refuses_selector_01_in_row_02 : (Instr.extNop02 0x01 .pop).wf = false := by decide
theorem test_wf_refuses_selector_04_in_row_02 : (Instr.extNop02 0x04 .pop).wf = false := by decide
theorem test_wf_refuses_selector_03_in_row_04 : (Instr.extNop04 0x03 .pop).wf = false := by decide
theorem test_wf_refuses_selector_08_in_row_04 : (Instr.extNop04 0x08 .pop).wf = false := by decide
theorem test_wf_refuses_selector_07_in_row_08 : (Instr.extNop08 0x07 .pop).wf = false := by decide
theorem test_wf_refuses_selector_10_in_row_08 : (Instr.extNop08 0x10 .pop).wf = false := by decide
theorem test_wf_refuses_selector_0F_in_row_10 : (Instr.extNop10 0x0F .pop).wf = false := by decide
theorem test_wf_refuses_selector_20_in_row_10 : (Instr.extNop10 0x20 .pop).wf = false := by decide
theorem test_wf_refuses_selector_1F_in_row_20 : (Instr.extNop20 0x1F .pop).wf = false := by decide
theorem test_wf_accepts_the_ends_of_each_row :
    (Instr.extNop02 0x02 .pop).wf ∧ (Instr.extNop02 0x03 .pop).wf ∧ (Instr.extNop04 0x04 .pop).wf ∧
    (Instr.extNop04 0x07 .pop).wf ∧ (Instr.extNop08 0x08 .pop).wf ∧ (Instr.extNop08 0x0F .pop).wf ∧
    (Instr.extNop10 0x10 .pop).wf ∧ (Instr.extNop10 0x1F .pop).wf ∧ (Instr.extNop20 0x20 .pop).wf ∧
    (Instr.extNop20 0x3F .pop).wf := by decide

/-! ## Decode: each constructor from a word written `bbbbbb aaaaaa oooo` (30_encoding.md R49, R52, R54, R55) -/

-- b = 0x1F next word, a = 0x00 A
theorem test_decode_set : decode 0b0111110000000001 = .set (.reg .a) .litNext := by decide
-- b = 0x01 B, a = 0x00 A
theorem test_decode_add : decode 0b0000010000000010 = .add (.reg .a) (.reg .b) := by decide
-- b = 0x21 literal 1, a = 0x1C PC
theorem test_decode_sub : decode 0b1000010111000011 = .sub .pc (.lit 1) := by decide
-- b = 0x0A [C], a = 0x13 [X + next word]
theorem test_decode_mul : decode 0b0010100100110100 = .mul (.memRegNext .x) (.memReg .c) := by decide
-- b = 0x22 literal 2, a = 0x1D O
theorem test_decode_div : decode 0b1000100111010101 = .div .o (.lit 2) := by decide
-- b = 0x1E [next word], a = 0x04 Y
theorem test_decode_mod : decode 0b0111100001000110 = .mod (.reg .y) .memNext := by decide
-- b = 0x3F literal 31, a = 0x0D [Z]
theorem test_decode_shl : decode 0b1111110011010111 = .shl (.memReg .z) (.lit 31) := by decide
-- b = 0x06 I, a = 0x07 J
theorem test_decode_shr : decode 0b0001100001111000 = .shr (.reg .j) (.reg .i) := by decide
-- b = 0x18 POP, a = 0x19 PEEK
theorem test_decode_and : decode 0b0110000110011001 = .and .peek .pop := by decide
-- b = 0x1A PUSH, a = 0x1B SP
theorem test_decode_bor : decode 0b0110100110111010 = .bor .sp .push := by decide
-- b = 0x1D O, a = 0x20 literal 0
theorem test_decode_xor : decode 0b0111011000001011 = .xor (.lit 0) .o := by decide
-- b = 0x21 literal 1, a = 0x00 A
theorem test_decode_ife : decode 0b1000010000001100 = .ife (.reg .a) (.lit 1) := by decide
-- b = 0x17 [J + next word], a = 0x08 [A]
theorem test_decode_ifn : decode 0b0101110010001101 = .ifn (.memReg .a) (.memRegNext .j) := by decide
-- b = 0x01 B, a = 0x00 A
theorem test_decode_ifg : decode 0b0000010000001110 = .ifg (.reg .a) (.reg .b) := by decide
-- b = 0x1F next word, a = 0x3F literal 31
theorem test_decode_ifb : decode 0b0111111111111111 = .ifb (.lit 31) .litNext := by decide
-- b = 0x1F next word, s = 0x01
theorem test_decode_jsr : decode 0b0111110000010000 = .jsr .litNext := by decide
-- b = 0x1A PUSH, s = 0x00
theorem test_decode_extNop00 : decode 0b0110100000000000 = .extNop00 .push := by decide
-- b = 0x1F next word, s = 0x02
theorem test_decode_extNop02 : decode 0b0111110000100000 = .extNop02 0x02 .litNext := by decide
-- b = 0x00 A, s = 0x07
theorem test_decode_extNop04 : decode 0b0000000001110000 = .extNop04 0x07 (.reg .a) := by decide
-- b = 0x0F [J], s = 0x08
theorem test_decode_extNop08 : decode 0b0011110010000000 = .extNop08 0x08 (.memReg .j) := by decide
-- b = 0x1C PC, s = 0x1F
theorem test_decode_extNop10 : decode 0b0111000111110000 = .extNop10 0x1F .pc := by decide
-- b = 0x10 [A + next word], s = 0x3F
theorem test_decode_extNop20 : decode 0b0100001111110000 = .extNop20 0x3F (.memRegNext .a) := by decide

/-- The first, the last and a middle row's word through the host's numbering; half a word is no instruction. -/
theorem test_decodeTableWord : decodeTableWord 16 0x0001 = some (.set (.reg .a) (.reg .a)) ∧
    decodeTableWord 16 0x0200 = some (.extNop20 0x20 (.reg .a)) ∧ decodeTableWord 16 0x0010 = some (.jsr (.reg .a)) ∧
    decodeTableWord 8 0x01 = none := by decide

/-- The word placed is the word fetched, at the top of memory too. -/
theorem test_withFetchWord :
    (State.withFetchWord { State.reset with pc := 0xFFFF } 16 0x8401).mem = [(0xFFFF, 0x8401)] := by decide

/-! ## Single steps: the spec's vectors -/

-- T-SET-4: the sum of register and next word wraps
theorem test_set_wrapping_address :
    seen (placed { State.reset with b := 3 } [0x9D11, 0xFFFF]) (fun t => (t.cell 2, t.pc)) = some (7, 2) := by decide
-- T-SET-6: SP is read after the push
theorem test_set_push_sp :
    seen (placed State.reset [0x6DA1]) (fun t => (t.cell 0xFFFE, t.sp)) = some (0xFFFE, 0xFFFE) := by decide
-- T-ADD-1
theorem test_add_carry :
    seen (placed { State.reset with a := 0xFFFF, b := 2 } [0x0402]) (fun t => (t.a, t.o, t.pc)) = some (1, 1, 1) := by
  decide
-- T-ADD-6: at 0xFFFE, ADD PC, 1 wraps and carries
theorem test_add_pc_wraps :
    seen (placed { State.reset with pc := 0xFFFE } [0x85C2]) (fun t => (t.pc, t.o)) = some (0, 1) := by decide
-- T-SUB-1
theorem test_sub_borrow :
    seen (placed { State.reset with b := 1 } [0x0403]) (fun t => (t.a, t.o)) = some (0xFFFF, 0xFFFF) := by decide
-- T-SUB-4: O first, then the destination O
theorem test_sub_destination_o :
    seen (placed State.reset [0x95D3]) (fun t => (t.o, t.pc)) = some (0xFFFB, 1) := by decide
-- T-MUL-2
theorem test_mul_largest :
    seen (placed { State.reset with a := 0xFFFF, b := 0xFFFF } [0x0404]) (fun t => (t.a, t.o)) = some (1, 0xFFFE) := by
  decide
-- T-MUL-3: O kept
theorem test_mul_keeps_o :
    seen (placed { State.reset with a := 3, b := 4, o := 0x1234 } [0x0404]) (fun t => (t.a, t.o)) =
      some (0xC, 0x1234) := by decide
-- T-DIV-4: O's formula over the dividend 5
theorem test_div_destination_o :
    seen (placed { State.reset with o := 5 } [0x89D5]) (fun t => (t.o, t.pc)) = some (0x8000, 1) := by decide
-- T-DIV-7
theorem test_div_by_zero :
    seen (placed { State.reset with a := 9, o := 0x7777 } [0x8005]) (fun t => (t.a, t.o)) = some (0, 0) := by decide
-- T-MOD-3
theorem test_mod :
    seen (placed { State.reset with a := 0xFFFF } [0xC006]) (fun t => (t.a, t.pc)) = some (0xF, 1) := by decide
-- T-MOD-2: O kept
theorem test_mod_by_zero :
    seen (placed { State.reset with a := 7, o := 0x1111 } [0x8006]) (fun t => (t.a, t.o)) = some (0, 0x1111) := by
  decide
-- T-SHL-4
theorem test_shl_by_17 :
    seen (placed { State.reset with a := 0x9234 } [0xC407]) (fun t => (t.a, t.o)) = some (0, 0x2468) := by decide
-- T-SHL-7: a count of 0xFFFF
theorem test_shl_by_ffff :
    seen (placed { State.reset with a := 0xFFFF, b := 0xFFFF, o := 0x5555 } [0x0407]) (fun t => (t.a, t.o)) =
      some (0, 0) := by decide
-- T-SHR-2
theorem test_shr_by_4 :
    seen (placed { State.reset with a := 0x1234 } [0x9008]) (fun t => (t.a, t.o)) = some (0x0123, 0x4000) := by decide
-- T-SHR-4
theorem test_shr_by_20 :
    seen (placed { State.reset with a := 0x1234 } [0xD008]) (fun t => (t.a, t.o)) = some (0, 0x0123) := by decide
-- T-AND-2: three words, memory destination
theorem test_and_memory :
    seen (placed (writeMem State.reset 0x0200 0x1234) [0x7DE9, 0x0200, 0x0F0F]) (fun t => (t.cell 0x0200, t.pc)) =
      some (0x0204, 3) := by decide
-- T-BOR-1
theorem test_bor :
    seen (placed { State.reset with a := 0xF0F0, b := 0x0F00, o := 0x1111 } [0x040A]) (fun t => (t.a, t.o)) =
      some (0xFFF0, 0x1111) := by decide
-- T-XOR-1
theorem test_xor :
    seen (placed { State.reset with a := 0xF0F0, b := 0xFF00, o := 0x1111 } [0x040B]) (fun t => (t.a, t.o)) =
      some (0x0FF0, 0x1111) := by decide
-- T-IF-2: three words skipped
theorem test_ife_skips_three_words :
    seen (placed State.reset [0x840C, 0x7DF1, 1, 2]) (fun t => (t.pc, t.a, t.sp)) = some (4, 0, 0xFFFF) := by decide
-- T-IF-14: the skip wraps PC
theorem test_ife_skip_wraps :
    seen (placed { State.reset with pc := 0xFFFE } [0x840C, 0x8401]) (fun t => (t.pc, t.a)) = some (0, 0) := by decide
-- T-IF-3
theorem test_ifn_skips_two_words :
    seen (placed { State.reset with a := 5, b := 5 } [0x040D, 0x7D61, 0x1000, 0x0040]) (·.pc) = some 4 := by decide
-- T-IF-5: unsigned
theorem test_ifg_is_unsigned :
    seen (placed { State.reset with a := 0x7FFF, b := 0x8000 } [0x040E, 0x8421]) (·.pc) = some 2 := by decide
-- T-IF-7: equal is not greater
theorem test_ifg_equal_skips :
    seen (placed { State.reset with a := 5, b := 5 } [0x040E, 0x8421]) (·.pc) = some 2 := by decide
-- T-IF-8
theorem test_ifb_skips :
    seen (placed { State.reset with a := 0x00F0 } [0x7C0F, 0x0F00, 0x8421]) (·.pc) = some 3 := by decide
-- T-IF-9
theorem test_ifb_true :
    seen (placed { State.reset with a := 0x0180 } [0x7C0F, 0x0F00]) (·.pc) = some 2 := by decide
-- T-JSR-2: the return address is past the trailing word
theorem test_jsr_two_words :
    seen (placed { State.reset with pc := 0x10 } [0x7C10, 0x0040]) (fun t => (t.pc, t.sp, t.cell 0xFFFE)) =
      some (0x40, 0xFFFE, 0x12) := by decide
-- T-JSR-6: JSR PUSH reads the cell it bound, below which the push goes
theorem test_jsr_push :
    seen (placed (writeMem { State.reset with pc := 0x10 } 0xFFFE 0x0100) [0x6810])
      (fun t => (t.pc, t.sp, t.cell 0xFFFD)) = some (0x100, 0xFFFD, 0x11) := by decide
-- T-EXT-3
theorem test_extNop00_push :
    seen (placed State.reset [0x6800]) (fun t => (t.pc, t.sp, t.cell 0xFFFE)) = some (1, 0xFFFE, 0) := by decide
-- T-EXT-2
theorem test_extNop02_two_words :
    seen (placed State.reset [0x7C20, 0x1234]) (fun t => (t.pc, t.sp)) = some (2, 0xFFFF) := by decide
-- T-EXT-4: SP wraps
theorem test_extNop20_pop :
    seen (placed State.reset [0x63F0]) (fun t => (t.pc, t.sp)) = some (1, 0) := by decide
-- T-SET-3 (L1-9 as corrected by C3), T-ADD-4, T-IF-16: a literal destination changes only PC and, by an arithmetic
-- opcode, O, and may be reported; a conditional on literals reports nothing
theorem test_literal_destinations :
    seen (placed { State.reset with a := 7 } [0x0301]) (fun t => (t.a, t.o, t.sp, t.pc)) = some (7, 0, 0xFFFF, 1) ∧
    stepEvent (placed { State.reset with a := 7 } [0x0301]) = some .literalWriteIgnored ∧
    seen (placed { State.reset with a := 0xFFFF } [0x0252]) (fun t => (t.a, t.o)) = some (0xFFFF, 1) ∧
    stepEvent (placed State.reset [0x965C]) = none := by decide

/-! ## Witnesses: a concrete state and operands for the hypotheses and clauses of the obligations -/

theorem witness_DecodeOfEncodeIsTheInstruction : (Instr.extNop20 0x3F .pop).wf = true := by decide

theorem witness_EveryWordMatchesExactlyItsTableRow :
    opcodeTable[21]? = some ⟨"EXT_NOP", 0x020F, 0x0200⟩ ∧ ((0x0200 : Word) &&& 0x020F = 0x0200) ∧
      ¬ ((0x0100 : Word) &&& 0x020F = 0x0200) := by decide

theorem witness_LengthIsTheFirstWordAndItsTrailingWords : opField 0x7C10 = 0 ∧ lenWord 0x7C10 = 2 ∧
    lenWord 0x7DF1 = 3 ∧ lenWord 0x0401 = 1 := by decide

theorem witness_WordsOfAnInstructionReadBack : (Instr.set .memNext .litNext).wf = true ∧
    [(0x0100 : Word), 5].length = (Instr.set .memNext .litNext).trailing ∧
    [(0x0100 : Word)].length < (Instr.set .memNext .litNext).trailing := by decide

theorem witness_CanonicalMemoriesThatReadAlikeAreEqual : Memory.wf [(0, 5), (0xFFFF, 1)] := by decide

theorem witness_BootHoldsTheImage : (([(0, 0x8401), (0xFFFF, 0x0001)] : List (Word × Word)).map Prod.fst).Nodup ∧
    ((0xFFFF : Word), (0x0001 : Word)) ∈ ([(0, 0x8401), (0xFFFF, 0x0001)] : List (Word × Word)) ∧
    (1 : Word) ∉ ([(0, 0x8401), (0xFFFF, 0x0001)] : List (Word × Word)).map Prod.fst := by decide

theorem witness_HostWriteThenRead : (1 : Word) ≠ 0 := by decide

theorem witness_ResolvingChangesOnlyPcAndSp : Reg.o ≠ .pc ∧ Reg.o ≠ .sp ∧ nw 0x17 = 1 ∧ nw 0x18 = 0 ∧
    (0x19 : BitVec 6) ≠ 0x18 ∧ (0x19 : BitVec 6) ≠ 0x1A := by decide

/-- `WritesResult`: each destination form (register, SP, PC, O, memory, literal), here by SET. -/
theorem witness_SetWritesTheSource :
    (fetchOperands (.reg .j) .litNext State.reset).st.pc = pcAfter (.reg .j) .litNext State.reset ∧
    (resolve (.reg .j) State.reset).1 = .reg (generalReg .j) ∧ (resolve .sp State.reset).1 = .reg .sp ∧
    (resolve .pc State.reset).1 = .reg .pc ∧ (resolve .o State.reset).1 = .reg .o ∧
    (resolve .push State.reset).1 = .mem 0xFFFE ∧ (resolve (.lit 31) State.reset).1 = .lit 31 := by decide

/-- The sum 0xFFFF carries nothing, the sum 0x10000 carries. -/
theorem witness_AddWritesSumAndCarry :
    let f := fetchOperands (.reg .a) (.lit 1) { State.reset with a := 0xFFFF }
    let g := fetchOperands (.reg .a) (.lit 1) { State.reset with a := 0xFFFE }
    f.a.toNat + f.b.toNat > 0xFFFF ∧ ¬ g.a.toNat + g.b.toNat > 0xFFFF := by decide

/-- 0 - 1 borrows, 1 - 1 does not. -/
theorem witness_SubWritesDifferenceAndBorrow :
    let f := fetchOperands (.reg .a) (.lit 1) State.reset
    let g := fetchOperands (.reg .a) (.lit 1) { State.reset with a := 1 }
    f.a.toNat < f.b.toNat ∧ ¬ g.a.toNat < g.b.toNat := by decide

/-- The product 0x10000 exceeds 16 bits, the product 0xFFFF does not. -/
theorem witness_MulWritesProductAndHighWord :
    let f := fetchOperands (.reg .a) (.lit 2) { State.reset with a := 0x8000 }
    let g := fetchOperands (.reg .a) (.lit 1) { State.reset with a := 0xFFFF }
    f.a.toNat * f.b.toNat > 0xFFFF ∧ ¬ g.a.toNat * g.b.toNat > 0xFFFF := by decide

/-- Divisor 0 and divisor 1. -/
theorem witness_DivWritesQuotientAndFraction :
    (fetchOperands (.reg .a) (.lit 0) State.reset).b = 0 ∧ (fetchOperands (.reg .a) (.lit 1) State.reset).b ≠ 0 := by
  decide

theorem witness_ModWritesRemainder :
    (fetchOperands (.reg .a) (.reg .b) State.reset).b = 0 ∧ (fetchOperands (.reg .a) (.lit 31) State.reset).b ≠ 0 := by
  decide

/-- Each range of the shift counts at both ends. -/
theorem witness_ShlByTheSizeOfTheCount :
    (shlResult 0x8001 0, shlO 0x8001 0) = (0x8001, some 0) ∧ (shlResult 0x8001 1, shlO 0x8001 1) = (2, some 1) ∧
    (shlResult 0x8001 15, shlO 0x8001 15) = (0x8000, some 0x4000) ∧
    (shlResult 0x8001 16, shlO 0x8001 16) = (0, some 0x8001) ∧ (shlResult 0x8001 17, shlO 0x8001 17) = (0, some 2) ∧
    (shlResult 0x8001 31, shlO 0x8001 31) = (0, some 0x8000) ∧ (shlResult 0x8001 32, shlO 0x8001 32) = (0, some 0) ∧
    (shlResult 0x8001 0xFFFF, shlO 0x8001 0xFFFF) = (0, some 0) := by decide

/-- Each range of the shift counts at both ends. -/
theorem witness_ShrByTheSizeOfTheCount :
    (shrResult 0x8001 0, shrO 0x8001 0) = (0x8001, some 0) ∧
    (shrResult 0x8001 1, shrO 0x8001 1) = (0x4000, some 0x8000) ∧
    (shrResult 0x8001 15, shrO 0x8001 15) = (1, some 2) ∧ (shrResult 0x8001 16, shrO 0x8001 16) = (0, some 0x8001) ∧
    (shrResult 0x8001 17, shrO 0x8001 17) = (0, some 0x4000) ∧ (shrResult 0x8001 31, shrO 0x8001 31) = (0, some 1) ∧
    (shrResult 0x8001 32, shrO 0x8001 32) = (0, some 0) ∧ (shrResult 0x8001 0xFFFF, shrO 0x8001 0xFFFF) = (0, some 0) := by
  decide

/-- Each condition once true and once false, IFG at equality and across the sign bit. -/
theorem witness_IfConditions :
    let f := fetchOperands (.lit 1) (.lit 1) State.reset
    let g := fetchOperands (.reg .a) (.reg .b) { State.reset with a := 0x8000, b := 0x7FFF }
    f.a = f.b ∧ g.a ≠ g.b ∧ g.a.toNat > g.b.toNat ∧ ¬ f.a.toNat > f.b.toNat ∧ f.a &&& f.b ≠ 0 ∧ g.a &&& g.b = 0 := by
  decide

theorem witness_ExecutingAndSkippingAdvanceAlike :
    let s := placed State.reset [0x7DE1, 0x1000, 5]
    (after s).isSome ∧ destination (decode (s.cell s.pc)) ≠ some .pc ∧ decode (s.cell s.pc) = .set .memNext .litNext ∧
      isIf (decode (s.cell s.pc)) = false := by decide

/-- JSR's target by each form of descriptor: SP, PC, another register, the pushed cell, another cell, a literal. -/
theorem witness_JsrPushesThenJumps :
    (resolve .sp State.reset).1 = .reg .sp ∧ (resolve .pc State.reset).1 = .reg .pc ∧
    (resolve (.reg .a) State.reset).1 = .reg .a ∧
    (resolve .pop State.reset).1 = .mem (State.reset.sp + spShift .pop - 1) ∧
    (resolve .push State.reset).1 = .mem 0xFFFE ∧ State.reset.sp + spShift .push - 1 = 0xFFFD ∧
    (resolve (.lit 31) State.reset).1 = .lit 31 := by decide

theorem witness_PopIntoPcReturnsFromJsr : ∃ t, exec (.jsr (.reg .a)) State.reset = .next t := ⟨_, rfl⟩

theorem witness_ExtNopOnlyResolvesItsOperand :
    extNopOperand (.extNop00 .pop) = some .pop ∧ extNopOperand (.extNop02 0x02 .pop) = some .pop ∧
    extNopOperand (.extNop04 0x04 .pop) = some .pop ∧ extNopOperand (.extNop08 0x08 .pop) = some .pop ∧
    extNopOperand (.extNop10 0x10 .pop) = some .pop ∧ extNopOperand (.extNop20 0x20 .pop) = some .pop := by decide

theorem witness_StepRunsTheEncodedInstruction : (Instr.extNop02 0x03 .push).wf = true ∧
    (placed State.reset [encode (.extNop02 0x03 .push)]).cell State.reset.pc = encode (.extNop02 0x03 .push) := by
  decide

theorem witness_InvariantHoldsAtReset : Memory.wf [(3, 1)] := by decide

theorem witness_EveryStepKeepsTheInvariant : (placed State.reset [0x01A1]).Inv ∧
    ∃ t, step (placed State.reset [0x01A1]) = .next t := ⟨by decide, _, rfl⟩

theorem witness_RunsFromAnyImageStaySafe : ∃ t, Steps (boot [(0, 0x8401)]) t :=
  ⟨_, .tail .refl rfl⟩

/-- Two ways of writing one memory down, one of them not canonical. -/
theorem witness_StepDependsOnlyOnRegistersAndCells :
    Alike State.reset { State.reset with mem := [(7, 0)] } ∧ ∃ t, step State.reset = .next t :=
  ⟨⟨fun r => by cases r <;> rfl, fun addr => by
    show Memory.read [] addr = Memory.read [(7, 0)] addr
    simp [Memory.read, Memory.unlisted]⟩, _, rfl⟩

/-- A cell that is stored to, a cell that is not, and an instruction that stores nothing. -/
theorem witness_OnlyTheComputedCellIsStored :
    storeAddress (.set .push (.reg .a)) State.reset = some 0xFFFE ∧ storeAddress (.jsr .pop) State.reset = some 0xFFFF ∧
    storeAddress (.set .push (.reg .a)) State.reset ≠ some 0xFFFF ∧
    storeAddress (.ife .push (.reg .a)) State.reset = none := by decide

theorem witness_OnlyArithmeticOrDestinationChangesO :
    updatesO (.mod (.reg .a) .o) = false ∧ destination (.mod (.reg .a) .o) ≠ some .o := by decide

theorem witness_GeneralRegistersChangeOnlyAsDestination :
    destination (.set (.memReg .a) .pop) ≠ some (.reg .a) ∧ destination (.jsr (.reg .a)) ≠ some (.reg .a) := by decide

/-- Each of the three clauses, SP at the edge. -/
theorem witness_SpChangesOnlyByStackUseOrDestination :
    destination (.set .pop .pop) ≠ some .sp ∧ basicOperands (.set .pop .pop) = some (.pop, .pop) ∧
    destination (.jsr .push) ≠ some .sp ∧ extNopOperand (.extNop00 .push) = some .push ∧
    (0xFFFF : Word) + spShift .pop = 0 := by decide

/-- At an ordinary address and at 0xFFFF. -/
theorem witness_SubPcOneIsASelfLoop :
    (placed State.reset [0x85C3]).cell (placed State.reset [0x85C3]).pc = 0x85C3 ∧
    (placed { State.reset with pc := 0xFFFF } [0x85C3]).cell 0xFFFF = 0x85C3 := by decide

theorem witness_ZeroWordOnlyAdvancesPc : State.reset.cell State.reset.pc = 0 := by decide

/-- A run that ends at a breakpoint before its first step, one that ends there after a step, one that runs out; a start
at a breakpoint that is not tested; no step at all. -/
theorem witness_HostRunEndsAtABreakpointOrOutOfSteps :
    hostRun ⟨[0], true⟩ 5 State.reset = .next (State.reset, .atBreakpoint) ∧
    hostRun ⟨[1], false⟩ 5 State.reset = .next ({ State.reset with pc := 1 }, .atBreakpoint) ∧
    hostRun ⟨[], false⟩ 1 State.reset = .next ({ State.reset with pc := 1 }, .outOfSteps) ∧
    hostRun ⟨[0], false⟩ 1 State.reset = .next ({ State.reset with pc := 1 }, .outOfSteps) ∧
    hostRun ⟨[0], false⟩ 0 State.reset = .next (State.reset, .outOfSteps) := ⟨rfl, rfl, rfl, rfl, rfl⟩

/-- An earlier state that is tested, and one that is not. -/
theorem witness_HostRun_PcTested :
    (0 < 1 ∧ StepsIn State.reset 0 State.reset ∧ PcTested ⟨[1], true⟩ 0 ∧ State.reset.pc ∉ [(1 : Word)]) ∧
    ¬ PcTested ⟨[0], false⟩ 0 := ⟨⟨by decide, .zero, .inr rfl, by decide⟩, by simp [PcTested]⟩

theorem witness_DiagnosticOnlyForADiscardedWrite :
    diagnosticAllowed (placed State.reset [0x0301]) (some .literalWriteIgnored) = true ∧
    diagnosticAllowed (placed State.reset [0x0301]) none = true ∧
    diagnosticAllowed (placed State.reset [0x0401]) (some .literalWriteIgnored) = false := by decide

/-- SET SP, B and SET O, B write what they are asked to and signal nothing; SET 16, POP moves SP by its source, and
ADD 5, A may write O. -/
theorem witness_DiagnosticOnlyForADiscardedWrite_clauses :
    diagnosticAllowed (placed State.reset [0x05B1]) (some .literalWriteIgnored) = false ∧
    diagnosticAllowed (placed State.reset [0x05D1]) (some .literalWriteIgnored) = false ∧
    destination (decode 0x6301) = some (.lit 16) ∧ isLiteral (.lit 16) = true ∧
    basicOperands (decode 0x6301) = some (.lit 16, .pop) ∧ updatesO (decode 0x6301) = false ∧
    updatesO (decode 0x0252) = true := by decide

/-- R63's notation: a next-word operand's word in brackets, `long`, and the two sides of the short literals' bound. -/
theorem test_text_follows_R63 :
    (Instr.set (.memRegNext .b) .litNext).text [0xFFFF, 5] = "SET [0xFFFF+B], long 0x0005" ∧
    numberOperand 0x1F = (.lit 31, []) ∧ numberOperand 0x20 = (.litNext, [0x20]) ∧
    longOperand 5 = (.litNext, [5]) := by decide

end Sys2Proof.Tests
end

section
/-! Reset, read through the accessors (spec/10_state.md R33): what each register and each cell holds. -/

namespace Sys2Proof.Machine

@[simp] theorem State.resetWith_reg (m : Memory) (r : Reg) :
    (State.resetWith m).reg r = if r = .sp then 0xFFFF else 0 := by
  cases r <;> simp [State.reg]

@[simp] theorem State.resetWith_cell (m : Memory) (addr : Word) :
    (State.resetWith m).cell addr = Memory.read m addr := rfl

end Sys2Proof.Machine

namespace Sys2Proof
open Machine

/-- Settles O10: the registers' part and the memory's part are each a law of reset for every image. -/
theorem resetValues : Obligations.ResetValues :=
  fun m => ⟨State.resetWith_reg m, State.resetWith_cell m⟩

end Sys2Proof
end

section
/-! The fields of a word as shifts and masks (spec/30_encoding.md R49). -/

namespace Sys2Proof.Machine

/-- Bit `k` of either side is bit `start + k` of `w` for `k` below `len`, and 0 above. -/
theorem setWidth_extractLsb'_eq_shift_and_mask {n : Nat} (w : BitVec n) (start len : Nat) :
    (w.extractLsb' start len).setWidth n = (w >>> start) &&& (BitVec.allOnes len).setWidth n := by
  ext k hk
  simp [Bool.and_comm]

end Sys2Proof.Machine

namespace Sys2Proof
open Machine

/-- Settles O1: each mask is as many ones as its field is wide, and the opcode's shift is 0. -/
theorem fieldsAreTheSourceFormulas : Obligations.FieldsAreTheSourceFormulas := by
  intro w
  refine ⟨?_, setWidth_extractLsb'_eq_shift_and_mask w 4 6, setWidth_extractLsb'_eq_shift_and_mask w 10 6⟩
  calc (opField w).setWidth 16
      _ = (w >>> 0) &&& 0xF := setWidth_extractLsb'_eq_shift_and_mask w 0 4
      _ = w &&& 0xF := by rw [BitVec.ushiftRight_zero]

end Sys2Proof
end

section
/-! Operand codes by number: which code names which operand (spec/40_operand_resolver.md R66-R77), and what resolving
by code does to PC and SP (R65). -/

namespace Sys2Proof

/-! ## Which operand a code names -/

/-- The other half of `GReg.ofIndex_index`: the eight indices and the eight registers correspond. -/
@[simp] theorem GReg.index_ofIndex (n : BitVec 3) : (GReg.ofIndex n).index = n := by
  revert n; decide

theorem decodeOperand_eq_iff {c : BitVec 6} {p : Operand} : decodeOperand c = p ↔ c = p.code := by
  constructor
  · rintro rfl; exact (code_decodeOperand c).symm
  · rintro rfl; exact decodeOperand_code p

theorem decodeOperand_reg (n : BitVec 3) : decodeOperand (0x00 + n.setWidth 6) = .reg (GReg.ofIndex n) := by
  rw [decodeOperand_eq_iff, Operand.code, GReg.index_ofIndex]

theorem decodeOperand_memReg (n : BitVec 3) : decodeOperand (0x08 + n.setWidth 6) = .memReg (GReg.ofIndex n) := by
  rw [decodeOperand_eq_iff, Operand.code, GReg.index_ofIndex]

theorem nw_eq_zero_or_one (c : BitVec 6) : nw c = 0 ∨ nw c = 1 := by
  unfold nw
  split
  · exact .inr rfl
  · exact .inl rfl

end Sys2Proof

namespace Sys2Proof.Machine

/-! ## What resolving by code does to PC and SP -/

@[simp] theorem nextWord_pc (s : State) : (nextWord s).2.pc = s.pc + 1 := rfl

/-- PC is where the next word's fetch leaves it if the code has one, and unmoved otherwise. -/
theorem resolve_decodeOperand_pc (c : BitVec 6) (s : State) :
    (resolve (decodeOperand c) s).2.pc = if nw c = 1 then (nextWord s).2.pc else s.pc := by
  rw [resolve_pc, trailing_decodeOperand, nextWord_pc]
  rcases nw_eq_zero_or_one c with h | h <;> simp [h]

theorem spShift_eq_zero {p : Operand} (hpop : p ≠ .pop) (hpush : p ≠ .push) : spShift p = 0 := by
  cases p
  case pop => exact absurd rfl hpop
  case push => exact absurd rfl hpush
  all_goals rfl

theorem resolve_decodeOperand_sp {c : BitVec 6} (hpop : c ≠ 0x18) (hpush : c ≠ 0x1A) (s : State) :
    (resolve (decodeOperand c) s).2.sp = s.sp := by
  have hshift : spShift (decodeOperand c) = 0 :=
    spShift_eq_zero (mt decodeOperand_eq_iff.1 hpop) (mt decodeOperand_eq_iff.1 hpush)
  simp [hshift]

/-! ## Resolving by an operand's own code -/

theorem resolve_decodeOperand_code (p : Operand) (s : State) : resolve (decodeOperand p.code) s = resolve p s := by
  rw [decodeOperand_code]

/-! ## Reading through a descriptor (R80) -/

@[simp] theorem opRead_reg (r : Reg) (s : State) : opRead (.reg r) s = s.reg r := rfl
@[simp] theorem opRead_mem (addr : Word) (s : State) : opRead (.mem addr) s = s.cell addr := rfl
@[simp] theorem opRead_lit (v : Word) (s : State) : opRead (.lit v) s = v := rfl

end Sys2Proof.Machine

namespace Sys2Proof
open Machine

/-- Settles O14: the frame of resolving holds for every operand; only PC's and SP's clauses look at the code. -/
theorem resolvingChangesOnlyPcAndSp : Obligations.ResolvingChangesOnlyPcAndSp :=
  fun c s => ⟨fun _ hpc hsp => resolve_reg (decodeOperand c) s hpc hsp, resolve_mem (decodeOperand c) s,
    resolve_decodeOperand_pc c s, fun hpop hpush => resolve_decodeOperand_sp hpop hpush s⟩

/-- Settles O15: each code is the code of one operand, and `resolve` of that operand is the clause as it stands. -/
theorem oneWordOperandCodesResolve : Obligations.OneWordOperandCodesResolve := by
  intro s
  refine ⟨fun n => ?reg, fun n => ?memReg, ?pop, ?peek, ?push, ?sp, ?pc, ?o, fun v => ?lit⟩
  case reg => rw [decodeOperand_reg]; rfl
  case memReg => rw [decodeOperand_memReg]; rfl
  case pop => exact resolve_decodeOperand_code .pop s
  case peek => exact resolve_decodeOperand_code .peek s
  case push => exact resolve_decodeOperand_code .push s
  case sp => exact resolve_decodeOperand_code .sp s
  case pc => exact resolve_decodeOperand_code .pc s
  case o => exact resolve_decodeOperand_code .o s
  case lit => exact resolve_decodeOperand_code (.lit v) s

/-- Settles O18: one reading rule for each kind of descriptor. -/
theorem operandReadsGiveTheCurrentValue : Obligations.OperandReadsGiveTheCurrentValue :=
  fun s => ⟨fun r => opRead_reg r s, fun addr => opRead_mem addr s, fun v => opRead_lit v s⟩

end Sys2Proof
end

section
/-! Totality of the step (spec/41_execution_cycle.md R94): every instruction's meaning answers a next state (R122), so
a run can go on from every state. -/

namespace Sys2Proof.Machine

/-- No instruction faults or is refused, whatever its operands and the state. -/
theorem exec_eq_next (i : Instr) (s : State) : ∃ t, exec i s = .next t :=
  match i with
  | .set a b => ⟨_, exec_set a b s⟩
  | .add a b => ⟨_, exec_add a b s⟩
  | .sub a b => ⟨_, exec_sub a b s⟩
  | .mul a b => ⟨_, exec_mul a b s⟩
  | .div a b => ⟨_, exec_div a b s⟩
  | .mod a b => ⟨_, exec_mod a b s⟩
  | .shl a b => ⟨_, exec_shl a b s⟩
  | .shr a b => ⟨_, exec_shr a b s⟩
  | .and a b => ⟨_, exec_and a b s⟩
  | .bor a b => ⟨_, exec_bor a b s⟩
  | .xor a b => ⟨_, exec_xor a b s⟩
  | .ife a b => ⟨_, exec_ife a b s⟩
  | .ifn a b => ⟨_, exec_ifn a b s⟩
  | .ifg a b => ⟨_, exec_ifg a b s⟩
  | .ifb a b => ⟨_, exec_ifb a b s⟩
  | .jsr b => ⟨_, exec_jsr b s⟩
  | .extNop00 _ | .extNop02 _ _ | .extNop04 _ _ | .extNop08 _ _ | .extNop10 _ _ | .extNop20 _ _ =>
    ⟨_, exec_extNop rfl s⟩

/-- A step is the `exec` of whatever word stands at PC. -/
theorem canStep (s : State) : CanStep s := exec_eq_next (decode (nextWord s).1) (nextWord s).2

end Sys2Proof.Machine

namespace Sys2Proof
open Machine

/-- Settles O47: every state can step, and two answers of `step` on one state are the same answer. -/
theorem everyStateHasOneSuccessor : Obligations.EveryStateHasOneSuccessor := by
  intro s
  obtain ⟨t, ht⟩ := canStep s
  exact ⟨t, ht, fun u hu => Host.Outcome.next.inj (hu.symm.trans ht)⟩

end Sys2Proof
end

section
/-! The basic opcodes with no effect on O of their own: SET, MOD, AND, BOR, XOR (spec/42_basic_alu.md R96, R101,
R104-R106). They differ only in the value they write. -/

namespace Sys2Proof.Machine

/-- The one shape of the five: an instruction that answers the state after its destination's write, and no write of O,
completes with the whole effect of that write. Where the destination is O, O holds the value. -/
theorem exec_writes_of_dstOnly {i : Instr} {a b : Operand} {s : State} {v : Word}
    (h : exec i s = .next (dstThenO (fetchOperands a b s) v none)) :
    ∃ t, exec i s = .next t ∧ WritesResult a b (resolve a s).1 v s.o v s t :=
  ⟨_, h, dstThenO_writes a b s v none⟩

end Sys2Proof.Machine

namespace Sys2Proof
open Machine

/-- Settles O23: the value written is b. -/
theorem setWritesTheSource : Obligations.SetWritesTheSource :=
  fun a b s => ⟨opField_packWord b.code a.code 0x1, exec_writes_of_dstOnly (exec_set a b s)⟩

/-- Settles O28: the value written is `modResult`, whose definition is the rule's own case split on the divisor. -/
theorem modWritesRemainder : Obligations.ModWritesRemainder :=
  fun a b s => ⟨opField_packWord b.code a.code 0x6, exec_writes_of_dstOnly (exec_mod a b s)⟩

/-- Settles O31: the value written is the bitwise and. -/
theorem andWritesConjunction : Obligations.AndWritesConjunction :=
  fun a b s => ⟨opField_packWord b.code a.code 0x9, exec_writes_of_dstOnly (exec_and a b s)⟩

/-- Settles O32: the value written is the bitwise or. -/
theorem borWritesDisjunction : Obligations.BorWritesDisjunction :=
  fun a b s => ⟨opField_packWord b.code a.code 0xA, exec_writes_of_dstOnly (exec_bor a b s)⟩

/-- Settles O33: the value written is the bitwise exclusive or. -/
theorem xorWritesExclusiveOr : Obligations.XorWritesExclusiveOr :=
  fun a b s => ⟨opField_packWord b.code a.code 0xB, exec_writes_of_dstOnly (exec_xor a b s)⟩

end Sys2Proof
end

section
/-! The conditionals IFE, IFN, IFG and IFB (spec/43_conditional_skip.md R109-R113). They differ only in their
condition. -/

namespace Sys2Proof.Machine

/-- The one shape of the four: an instruction that ends in `ExecuteIf` (R109) on the state its operands left completes
with the whole effect of that end. -/
theorem exec_ifEffect_of_skipUnless {i : Instr} {a b : Operand} {s : State} {c : Prop} [Decidable c]
    (h : exec i s = .next (skipUnless (decide c) (fetchOperands a b s).st)) :
    ∃ t, exec i s = .next t ∧ IfEffect a b c s t :=
  ⟨_, h, skipUnless_effect a b c s⟩

end Sys2Proof.Machine

namespace Sys2Proof
open Machine

/-- Settles O36: the condition is a = b. -/
theorem ifeSkipsUnlessEqual : Obligations.IfeSkipsUnlessEqual :=
  fun a b s => ⟨opField_packWord b.code a.code 0xC, exec_ifEffect_of_skipUnless (exec_ife a b s)⟩

/-- Settles O37: the condition is a ≠ b. -/
theorem ifnSkipsUnlessDifferent : Obligations.IfnSkipsUnlessDifferent :=
  fun a b s => ⟨opField_packWord b.code a.code 0xD, exec_ifEffect_of_skipUnless (exec_ifn a b s)⟩

/-- Settles O38: the condition is a > b on the values as natural numbers, hence unsigned. -/
theorem ifgSkipsUnlessGreater : Obligations.IfgSkipsUnlessGreater :=
  fun a b s => ⟨opField_packWord b.code a.code 0xE, exec_ifEffect_of_skipUnless (exec_ifg a b s)⟩

/-- Settles O39: the condition is that the bitwise and is not 0. -/
theorem ifbSkipsUnlessCommonBit : Obligations.IfbSkipsUnlessCommonBit :=
  fun a b s => ⟨opField_packWord b.code a.code 0xF, exec_ifEffect_of_skipUnless (exec_ifb a b s)⟩

end Sys2Proof
end

section
/-! The decoder and the encoder are inverse to each other (spec/30_encoding.md R50-R60), shown on the three fields. -/

namespace Sys2Proof

/-! ## The extended form, by its selector (R53, R54) -/

theorem selectorIn_iff {lo hi s : BitVec 6} :
    selectorIn lo hi s = true ↔ lo.toNat ≤ s.toNat ∧ s.toNat ≤ hi.toNat := by
  simp [selectorIn, BitVec.le_def]

/-! A selector of a row decodes to that row: every bound tested before the row's own lies below it. -/

theorem decodeExt_row02 {s : BitVec 6} (h : selectorIn 0x02 0x03 s = true) (b : Operand) :
    decodeExt s b = .extNop02 s b := by
  rw [selectorIn_iff] at h
  rw [decodeExt, if_neg (by bv_omega), if_neg (by bv_omega), if_pos (by bv_omega)]

theorem decodeExt_row04 {s : BitVec 6} (h : selectorIn 0x04 0x07 s = true) (b : Operand) :
    decodeExt s b = .extNop04 s b := by
  rw [selectorIn_iff] at h
  rw [decodeExt, if_neg (by bv_omega), if_neg (by bv_omega), if_neg (by bv_omega), if_pos (by bv_omega)]

theorem decodeExt_row08 {s : BitVec 6} (h : selectorIn 0x08 0x0F s = true) (b : Operand) :
    decodeExt s b = .extNop08 s b := by
  rw [selectorIn_iff] at h
  rw [decodeExt, if_neg (by bv_omega), if_neg (by bv_omega), if_neg (by bv_omega), if_neg (by bv_omega),
    if_pos (by bv_omega)]

theorem decodeExt_row10 {s : BitVec 6} (h : selectorIn 0x10 0x1F s = true) (b : Operand) :
    decodeExt s b = .extNop10 s b := by
  rw [selectorIn_iff] at h
  rw [decodeExt, if_neg (by bv_omega), if_neg (by bv_omega), if_neg (by bv_omega), if_neg (by bv_omega),
    if_neg (by bv_omega), if_pos (by bv_omega)]

theorem decodeExt_row20 {s : BitVec 6} (h : selectorIn 0x20 0x3F s = true) (b : Operand) :
    decodeExt s b = .extNop20 s b := by
  rw [selectorIn_iff] at h
  rw [decodeExt, if_neg (by bv_omega), if_neg (by bv_omega), if_neg (by bv_omega), if_neg (by bv_omega),
    if_neg (by bv_omega), if_neg (by bv_omega)]

/-- The bounds tested one after another are the ends of the rows' ranges. -/
theorem decodeExt_wf (s : BitVec 6) (b : Operand) : (decodeExt s b).wf = true := by
  unfold decodeExt
  split_ifs <;> simp only [Instr.wf, selectorIn_iff] <;> bv_omega

theorem encode_decodeExt (s : BitVec 6) (b : Operand) : encode (decodeExt s b) = packWord b.code s 0x0 := by
  unfold decodeExt
  split_ifs with h0 h1
  · rw [h0]; rfl
  · rw [h1]; rfl
  all_goals rfl

theorem decode_packWord_extended (b : Operand) (s : BitVec 6) : decode (packWord b.code s 0x0) = decodeExt s b := by
  simp [decode]

/-! ## All instructions -/

/-- In the basic form the opcode field picks the constructor and the operand codes give back their operands; in the
extended form the selector picks the row. -/
theorem decode_encode {i : Instr} (h : i.wf = true) : decode (encode i) = i := by
  cases i
  case jsr b | extNop00 b => exact decode_packWord_extended b _
  case extNop02 s b => exact (decode_packWord_extended b s).trans (decodeExt_row02 h b)
  case extNop04 s b => exact (decode_packWord_extended b s).trans (decodeExt_row04 h b)
  case extNop08 s b => exact (decode_packWord_extended b s).trans (decodeExt_row08 h b)
  case extNop10 s b => exact (decode_packWord_extended b s).trans (decodeExt_row10 h b)
  case extNop20 s b => exact (decode_packWord_extended b s).trans (decodeExt_row20 h b)
  all_goals simp [encode, decode]

theorem decode_of_opField_zero {w : Word} (h : opField w = 0) :
    decode w = decodeExt (aField w) (decodeOperand (bField w)) := by
  simp [decode, h]

theorem wf_decode (w : Word) : (decode w).wf = true := by
  unfold decode
  split
  case h_1 => exact decodeExt_wf _ _
  all_goals rfl

/-- Packing the operand codes a word's fields decode to, under its own opcode, gives the word back. -/
theorem packWord_decodeOperand {w : Word} {o : BitVec 4} (h : opField w = o) :
    packWord (decodeOperand (bField w)).code (decodeOperand (aField w)).code o = w := by
  rw [code_decodeOperand, code_decodeOperand, ← h, packWord_fields]

theorem encode_decode (w : Word) : encode (decode w) = w := by
  by_cases h : opField w = 0
  · rw [decode_of_opField_zero h, encode_decodeExt, code_decodeOperand, ← h, packWord_fields]
  · unfold decode
    split
    case h_1 h0 => exact absurd (BitVec.eq_of_toNat_eq h0) h
    case h_16 =>
      simp only [imp_false] at *
      exact packWord_decodeOperand (by bv_omega)
    all_goals exact packWord_decodeOperand (by bv_omega)

/-! ## The length from the first word (R56, R57) -/

theorem lenWord_encode (i : Instr) : lenWord (encode i) = 1 + i.trailing :=
  match i with
  | .set a b => Laws.Length.set a b
  | .add a b => Laws.Length.add a b
  | .sub a b => Laws.Length.sub a b
  | .mul a b => Laws.Length.mul a b
  | .div a b => Laws.Length.div a b
  | .mod a b => Laws.Length.mod a b
  | .shl a b => Laws.Length.shl a b
  | .shr a b => Laws.Length.shr a b
  | .and a b => Laws.Length.and a b
  | .bor a b => Laws.Length.bor a b
  | .xor a b => Laws.Length.xor a b
  | .ife a b => Laws.Length.ife a b
  | .ifn a b => Laws.Length.ifn a b
  | .ifg a b => Laws.Length.ifg a b
  | .ifb a b => Laws.Length.ifb a b
  | .jsr b => Laws.Length.jsr b
  | .extNop00 b => Laws.Length.extNop00 b
  | .extNop02 s b => Laws.Length.extNop02 s b
  | .extNop04 s b => Laws.Length.extNop04 s b
  | .extNop08 s b => Laws.Length.extNop08 s b
  | .extNop10 s b => Laws.Length.extNop10 s b
  | .extNop20 s b => Laws.Length.extNop20 s b

theorem lenWord_eq (w : Word) : lenWord w = 1 + (decode w).trailing := by
  rw [← lenWord_encode, encode_decode]

theorem nw_le_one (c : BitVec 6) : nw c ≤ 1 := by
  rcases nw_eq_zero_or_one c with h | h <;> omega

theorem lenWord_le_three (w : Word) : lenWord w ≤ 3 := by
  have ha := nw_le_one (aField w)
  have hb := nw_le_one (bField w)
  unfold lenWord
  split_ifs <;> omega

theorem lenWord_le_two_of_extended {w : Word} (h : opField w = 0) : lenWord w ≤ 2 := by
  have hb := nw_le_one (bField w)
  rw [lenWord, if_pos h]
  omega

/-! ## Instructions as words in address order (R58) -/

theorem decodeWords_encodeWords {i : Instr} (h : i.wf = true) (tw rest : List Word) :
    decodeWords (encodeWords i tw ++ rest) =
      if (tw ++ rest).length < i.trailing then .error .missingTrailing
      else .ok (i, (tw ++ rest).take i.trailing, (tw ++ rest).drop i.trailing) := by
  rw [encodeWords, List.cons_append, decodeWords, decode_encode h]

/-- Settles O2: the fields of the packed word give back the codes, and the codes their operands. -/
theorem decodeOfEncodeIsTheInstruction : Obligations.DecodeOfEncodeIsTheInstruction :=
  fun _ h => decode_encode h

/-- Settles O3: a word is its three fields, and each field of the decoded instruction's word is the word's own. -/
theorem everyWordIsOneInstruction : Obligations.EveryWordIsOneInstruction :=
  fun w => ⟨wf_decode w, encode_decode w⟩

/-- Settles O6: the word is the encoding of its instruction, and each operand code adds at most one word. -/
theorem lengthIsTheFirstWordAndItsTrailingWords : Obligations.LengthIsTheFirstWordAndItsTrailingWords :=
  fun w => ⟨lenWord_eq w, by rw [lenWord_eq]; omega, lenWord_le_three w, lenWord_le_two_of_extended⟩

/-- Settles O7: reading back cuts the words after the first one where the decoded instruction's trailing words end. -/
theorem wordsOfAnInstructionReadBack : Obligations.WordsOfAnInstructionReadBack := by
  intro i tw rest hwf
  constructor
  · intro hlen
    have henough : ¬ (tw ++ rest).length < i.trailing := by simp [hlen]
    rw [decodeWords_encodeWords hwf, if_neg henough, List.take_left' hlen, List.drop_left' hlen]
  · intro hshort
    have hread := decodeWords_encodeWords hwf tw []
    simpa [hshort] using hread

/-- Settles O5: each of the words is the encoding of the instruction named. -/
theorem wordsOfTheSpecDecode : Obligations.WordsOfTheSpecDecode := by
  unfold Obligations.WordsOfTheSpecDecode
  decide

end Sys2Proof
end

section
/-! The opcode table (spec/opcode_table.json): a word's row by its fields. A basic row fixes the opcode field alone, an
extended row the opcode field 0 and some bits of the selector. -/

namespace Sys2Proof

/-- Masking acts on each field by itself. -/
theorem and_eq_iff_fields (w m p : Word) :
    w &&& m = p ↔
      opField w &&& opField m = opField p ∧ aField w &&& aField m = aField p ∧ bField w &&& bField m = bField p := by
  have ho : opField (w &&& m) = opField w &&& opField m := BitVec.extractLsb'_and ..
  have ha : aField (w &&& m) = aField w &&& aField m := BitVec.extractLsb'_and ..
  have hb : bField (w &&& m) = bField w &&& bField m := BitVec.extractLsb'_and ..
  rw [← ho, ← ha, ← hb]
  constructor
  · rintro rfl; exact ⟨rfl, rfl, rfl⟩
  · rintro ⟨ho, ha, hb⟩
    rw [← packWord_fields (w &&& m), ho, ha, hb, packWord_fields]

/-! ## The decoded instruction's row -/

/-- The basic rows stand in the order of their opcodes, the extended rows after them. -/
theorem opField_encode (i : Instr) : (opField (encode i)).toNat = if i.row < 15 then i.row + 1 else 0 := by
  cases i <;> simp [encode, Instr.row]

theorem row_decode_basic {w : Word} (h : opField w ≠ 0) : (decode w).row + 1 = (opField w).toNat := by
  have hop := opField_encode (decode w)
  rw [encode_decode] at hop
  split at hop
  · exact hop.symm
  · exact absurd (BitVec.eq_of_toNat_eq hop) h

theorem row_decodeExt_congr (s : BitVec 6) (b b' : Operand) : (decodeExt s b).row = (decodeExt s b').row := by
  unfold decodeExt
  split_ifs <;> rfl

theorem row_decodeExt_ge (s : BitVec 6) (b : Operand) : 15 ≤ (decodeExt s b).row := by
  unfold decodeExt
  split_ifs <;> simp [Instr.row]

/-! ## The table's rows -/

/-- Rows 0 to 14 fix the whole opcode field, to 1 to 15 in order, and leave both operands' fields free. -/
theorem opcodeTable_basic {k : Nat} {r : OpcodeRow} (hk : k < 15) (h : opcodeTable[k]? = some r) :
    opField r.mask = 0xF ∧ (opField r.pattern).toNat = k + 1 ∧ aField r.mask = 0 ∧ aField r.pattern = 0 ∧
      bField r.mask = 0 ∧ bField r.pattern = 0 := by
  revert r
  interval_cases k <;> rintro r ⟨⟩ <;> decide

/-- Rows 15 to 21 fix the whole opcode field, to 0, and leave the operand's field free; the selectors each has are those
the decoder gives it. -/
theorem opcodeTable_extended {k : Nat} {r : OpcodeRow} (hk : 15 ≤ k) (h : opcodeTable[k]? = some r) :
    opField r.mask = 0xF ∧ opField r.pattern = 0 ∧ bField r.mask = 0 ∧ bField r.pattern = 0 ∧
      ∀ s : BitVec 6, s &&& aField r.mask = aField r.pattern ↔ k = (decodeExt s .pc).row := by
  have hlt : k < 22 := (List.getElem?_eq_some_iff.1 h).1
  revert r
  interval_cases k <;> rintro r ⟨⟩ <;> decide

/-- A mask of all ones leaves the opcode field as it is. -/
theorem opField_and_ones (o : BitVec 4) : o &&& 0xF = o := BitVec.and_allOnes

theorem matches_basic_iff (w : Word) {k : Nat} {r : OpcodeRow} (hk : k < 15) (h : opcodeTable[k]? = some r) :
    w &&& r.mask = r.pattern ↔ (opField w).toNat = k + 1 := by
  obtain ⟨hom, hop, ham, hap, hbm, hbp⟩ := opcodeTable_basic hk h
  rw [and_eq_iff_fields, hom, ham, hap, hbm, hbp, opField_and_ones, BitVec.toNat_eq, hop]
  simp

theorem matches_extended_iff (w : Word) {k : Nat} {r : OpcodeRow} (hk : 15 ≤ k) (h : opcodeTable[k]? = some r) :
    w &&& r.mask = r.pattern ↔ opField w = 0 ∧ k = (decodeExt (aField w) .pc).row := by
  obtain ⟨hom, hop, hbm, hbp, hsel⟩ := opcodeTable_extended hk h
  rw [and_eq_iff_fields, hom, hop, hbm, hbp, opField_and_ones, hsel]
  simp

/-- Settles O4: a word with opcode field 0 is decoded by its selector and matches extended rows only, any other by its
opcode field and matches basic rows only. -/
theorem everyWordMatchesExactlyItsTableRow : Obligations.EveryWordMatchesExactlyItsTableRow := by
  intro w k r h
  by_cases hw : opField w = 0
  · have hrow : (decode w).row = (decodeExt (aField w) .pc).row := by
      rw [decode_of_opField_zero hw, row_decodeExt_congr]
    rcases Nat.lt_or_ge k 15 with hk | hk
    · have hge := row_decodeExt_ge (aField w) .pc
      rw [matches_basic_iff w hk h, hw, hrow]
      simp; omega
    · rw [matches_extended_iff w hk h, hrow]
      simp [hw]
  · have hrow := row_decode_basic hw
    rcases Nat.lt_or_ge k 15 with hk | hk
    · rw [matches_basic_iff w hk h]
      omega
    · have hlt := (opField w).isLt
      rw [matches_extended_iff w hk h]
      simp only [hw, false_and, false_iff]
      omega

end Sys2Proof
end

section
/-! One step and the runs made of steps (spec/41_execution_cycle.md R84, R94): memory stays canonical. -/

namespace Sys2Proof.Machine

theorem step_eq (s : State) : step s = exec (decode (s.cell s.pc)) { s with pc := s.pc + 1 } := rfl

/-- Memory is changed by `Memory.write` alone, and that keeps the canonical form. -/
theorem exec_keeps_wf {i : Instr} {s t : State} (hs : Memory.wf s.mem) (h : exec i s = .next t) :
    Memory.wf t.mem := by
  rcases exec_cases h with ⟨a, b, v, o, -, -, -, -, rfl | rfl⟩ | ⟨a, b, c, -, -, -, -, rfl⟩ | ⟨b, -, rfl⟩ | ⟨b, -, rfl⟩
  · exact dstThenO_wf _ v o (by rwa [fetchOperands_mem])
  · exact oThenDst_wf _ v o (by rwa [fetchOperands_mem])
  · rw [skipUnless_eq]
    change Memory.wf (fetchOperands a b s).st.mem
    rwa [fetchOperands_mem]
  · rw [State.setReg_mem]
    exact pushWord_wf _ (by rwa [resolve_mem])
  · rwa [resolve_mem]

theorem step_keeps_inv {s t : State} (hs : s.Inv) (h : step s = .next t) : t.Inv :=
  exec_keeps_wf (s := { s with pc := s.pc + 1 }) hs (step_eq s ▸ h)

/-- A property that every step keeps holds along every run. -/
theorem Steps.keeps {P : State → Prop} (hstep : ∀ s t, P s → step s = .next t → P t) {s t : State} (hs : P s)
    (h : Steps s t) : P t := by
  induction h with
  | refl => exact hs
  | tail _ hlast ih => exact hstep _ _ ih hlast

end Sys2Proof.Machine

namespace Sys2Proof
open Machine

/-- Settles O49: by the four shapes of a next state, each of which writes at most one cell. -/
theorem everyStepKeepsTheInvariant : Obligations.EveryStepKeepsTheInvariant :=
  fun _ _ hs h => step_keeps_inv hs h

/-- Settles O50: the loader's writes start a run in the invariant, the steps keep it, and every state can step. -/
theorem runsFromAnyImageStaySafe : Obligations.RunsFromAnyImageStaySafe :=
  fun image s hrun => ⟨hrun.keeps (P := State.Inv) (fun _ _ => step_keeps_inv) (boot_wf image), canStep s⟩

/-- Settles O48: reset takes the image as it is, and the empty image is canonical. -/
theorem invariantHoldsAtReset : Obligations.InvariantHoldsAtReset :=
  ⟨Memory.wf_nil, fun _ h => h⟩

/-- Settles O45: fetching moves PC one on and gives the word to the decoder. -/
theorem stepRunsTheDecodedInstruction : Obligations.StepRunsTheDecodedInstruction := step_eq

/-- Settles O11: PC is 0 at reset, whatever the image. -/
theorem firstStepFetchesAtZero : Obligations.FirstStepFetchesAtZero :=
  fun m => step_eq (State.resetWith m)

/-- Settles O46: the word at PC decodes back to the instruction. -/
theorem stepRunsTheEncodedInstruction : Obligations.StepRunsTheEncodedInstruction := by
  intro i s hwf hword
  rw [step_eq, hword, decode_encode hwf]

/-- Settles O58: the zero word is `extNop00` of register A, which resolves to no side effect. -/
theorem zeroWordOnlyAdvancesPc : Obligations.ZeroWordOnlyAdvancesPc := by
  intro s hword
  have hdecode : decode 0 = .extNop00 (.reg .a) := decode_encode (i := .extNop00 (.reg .a)) rfl
  rw [step_eq, hword, hdecode, exec_extNop rfl]
  rfl

end Sys2Proof
end

section
/-! The machine seen as the spec's pseudocode sees it (Sys2Proof/Safety/Pseudocode.lean): each operation of the model
next to the pseudocode's own, both as functions of the viewed state. -/

namespace Sys2Proof

/-! ## Exact integers and words -/

/-- Reducing modulo 2^16 before bringing an integer to 16 bits changes nothing. -/
@[simp] theorem mask16_mod (n : Nat) : mask16 (n % 0x10000) = mask16 n :=
  BitVec.eq_of_toNat_eq (by simp)

theorem mask16_toNat_add (v : Word) (n : Nat) : mask16 (v.toNat + n) = v + mask16 n := by
  simp [mask16, BitVec.ofNat_add]

theorem mask16_toNat (v : Word) : mask16 v.toNat = v := by simp [mask16]

/-! ## The fields of a word, by division -/

theorem opField_toNat (w : Word) : (opField w).toNat = w.toNat % 16 := by
  simp [opField]

theorem aField_toNat (w : Word) : (aField w).toNat = w.toNat / 16 % 64 := by
  simp [aField, Nat.shiftRight_eq_div_pow]

theorem bField_toNat (w : Word) : (bField w).toNat = w.toNat / 1024 := by
  have hlt := w.isLt
  simp [bField, Nat.shiftRight_eq_div_pow]
  omega

theorem nw_toNat (c : BitVec 6) : Pseudo.nw c.toNat = nw c := by
  revert c; decide

end Sys2Proof

namespace Sys2Proof.Machine
open Pseudo (view)

/-! ## Registers and cells -/

@[simp] theorem view_reg (s : State) (r : Reg) : (view s).reg r = s.reg r := rfl
@[simp] theorem view_mem (s : State) (addr : Word) : (view s).mem addr = s.cell addr := rfl

@[simp] theorem set_view (s : State) (r : Reg) (n : Nat) : (view s).set r n = view (s.setReg r (mask16 n)) := by
  refine Pseudo.View.ext (funext fun r' => ?_) (funext fun addr => ?_)
  · simp [Pseudo.View.set, State.reg_setReg, eq_comm]
  · simp [Pseudo.View.set]

@[simp] theorem store_view (s : State) (addr : Word) (n : Nat) :
    (view s).store addr n = view (s.setCell addr (mask16 n)) := by
  refine Pseudo.View.ext (funext fun r => ?_) (funext fun addr' => ?_)
  · simp [Pseudo.View.store]
  · simp [Pseudo.View.store]

/-! ## Fetching and resolving -/

@[simp] theorem nextWord_view (s : State) : Pseudo.nextWord (view s) = ((nextWord s).1, view (nextWord s).2) := by
  simp only [Pseudo.nextWord, set_view, view_reg, State.reg_pc, mask16_toNat_add]
  rfl

theorem litCode_toNat (v : BitVec 5) : (Operand.lit v).code.toNat = 0x20 + v.toNat := by
  revert v; decide

theorem mask16_sub_one (v : Word) : mask16 (v.toNat + 0xFFFF) = v - 1 := by
  rw [mask16_toNat_add, BitVec.sub_eq_add_neg]
  rfl

/-- The pseudocode on an operand's code does what `resolve` does on the operand. -/
theorem resolve_view (p : Operand) (s : State) :
    Pseudo.resolve p.code.toNat (view s) = ((resolve p s).1, view (resolve p s).2) := by
  cases p
  case reg r => cases r <;> rfl
  case memReg r => cases r <;> rfl
  case memRegNext r =>
    cases r <;> simp [Pseudo.resolve, resolve, Operand.code, GReg.index, Pseudo.generalIndex, generalReg, nextWord,
      mask16_toNat_add]
  case lit v =>
    have hlit : mask16 v.toNat = v.setWidth 16 := BitVec.ofNat_toNat ..
    simp (disch := omega) only [litCode_toNat, Pseudo.resolve, resolve, if_neg, Nat.add_sub_cancel_left, hlit]
  case pop => simp [Pseudo.resolve, resolve, Operand.code, mask16_toNat_add]; rfl
  case push => simp [Pseudo.resolve, resolve, Operand.code, mask16_sub_one]; rfl
  all_goals simp [Pseudo.resolve, resolve, Operand.code]

theorem opRead_view (d : Desc) (s : State) : Pseudo.opRead d (view s) = (opRead d s).toNat := by
  cases d <;> rfl

@[simp] theorem opWrite_view (d : Desc) (n : Nat) (s : State) :
    Pseudo.opWrite d n (view s) = view (opWrite d (mask16 n) s) := by
  cases d <;> simp [Pseudo.opWrite, opWrite]

/-! ## The skip -/

@[simp] theorem State.advance_advance (s : State) (m n : Nat) : (s.advance m).advance n = s.advance (m + n) := by
  simp [State.advance, mask16, BitVec.ofNat_add, BitVec.add_assoc]

theorem set_pc_view (s : State) (n : Nat) : (view s).set .pc (s.pc.toNat + n) = view (s.advance n) := by
  rw [set_view, mask16_toNat_add]
  rfl

theorem skip_view (s : State) : Pseudo.skip (view s) = view (skip s) := by
  have ho : (s.cell s.pc).toNat % 16 = 0 ↔ opField (s.cell s.pc) = 0 := by
    rw [← opField_toNat, BitVec.toNat_eq]; rfl
  simp only [Pseudo.skip, set_pc_view, view_mem, view_reg, State.reg_pc, ho, ← aField_toNat, ← bField_toNat,
    nw_toNat, Nat.add_assoc, State.advance_advance, skip, lenWord]
  split_ifs <;> rfl

theorem executeIf_view (c : Bool) (s : State) : Pseudo.executeIf c (view s) = view (skipUnless c s) := by
  cases c
  · exact skip_view s
  · rfl

/-! ## One opcode each (R96-R106, R110-R113, R118, R119)

`f` is what `fetchOperands` gives, and `dB` the source's descriptor. -/

section
variable {f : Fetched} {dB : Desc} (ha : f.a = opRead f.dst f.st) (hb : f.b = opRead dB f.st)
include hb

theorem execute_set : Pseudo.execute 0x1 f.dst dB (view f.st) = view (dstThenO f f.b none) := by
  simp [Pseudo.execute, opRead_view, ← hb, dstThenO, writeO]

include ha

theorem execute_add :
    Pseudo.execute 0x2 f.dst dB (view f.st) = view (dstThenO f (addResult f.a f.b) (addO f.a f.b)) := by
  simp only [Pseudo.execute, opRead_view, ← ha, ← hb, dstThenO, addResult, addO, opWrite_view, mask16_mod, set_view]
  split_ifs <;> rfl

theorem execute_sub :
    Pseudo.execute 0x3 f.dst dB (view f.st) = view (oThenDst f (subResult f.a f.b) (subO f.a f.b)) := by
  simp only [Pseudo.execute, opRead_view, ← ha, ← hb, oThenDst, subResult, subO, opWrite_view, set_view]
  split_ifs <;> rfl

theorem execute_mul :
    Pseudo.execute 0x4 f.dst dB (view f.st) = view (dstThenO f (mulResult f.a f.b) (mulO f.a f.b)) := by
  simp only [Pseudo.execute, opRead_view, ← ha, ← hb, dstThenO, mulResult, mulO, opWrite_view, mask16_mod, set_view,
    Nat.shiftRight_eq_div_pow]
  split_ifs <;> rfl

theorem execute_div :
    Pseudo.execute 0x5 f.dst dB (view f.st) = view (dstThenO f (divResult f.a f.b) (divO f.a f.b)) := by
  have h0 : f.b.toNat = 0 ↔ f.b = 0 := by rw [BitVec.toNat_eq]; rfl
  simp only [Pseudo.execute, opRead_view, ← ha, ← hb, dstThenO, divResult, divO, opWrite_view, mask16_mod, set_view,
    Nat.shiftLeft_eq, h0]
  split_ifs <;> rfl

theorem execute_mod :
    Pseudo.execute 0x6 f.dst dB (view f.st) = view (dstThenO f (modResult f.a f.b) none) := by
  have h0 : f.b.toNat = 0 ↔ f.b = 0 := by rw [BitVec.toNat_eq]; rfl
  simp only [Pseudo.execute, opRead_view, ← ha, ← hb, dstThenO, modResult, opWrite_view, h0]
  split_ifs <;> rfl

theorem execute_shl :
    Pseudo.execute 0x7 f.dst dB (view f.st) = view (dstThenO f (shlResult f.a f.b) (shlO f.a f.b)) := by
  simp only [Pseudo.execute, opRead_view, ← ha, ← hb, dstThenO, shlResult, shlO, opWrite_view, mask16_mod, set_view,
    Nat.shiftLeft_eq, Nat.shiftRight_eq_div_pow]
  rfl

theorem execute_shr :
    Pseudo.execute 0x8 f.dst dB (view f.st) = view (dstThenO f (shrResult f.a f.b) (shrO f.a f.b)) := by
  simp only [Pseudo.execute, opRead_view, ← ha, ← hb, dstThenO, shrResult, shrO, opWrite_view, mask16_mod, set_view,
    Nat.shiftLeft_eq, Nat.shiftRight_eq_div_pow]
  rfl

theorem execute_and : Pseudo.execute 0x9 f.dst dB (view f.st) = view (dstThenO f (f.a &&& f.b) none) := by
  simp only [Pseudo.execute, opRead_view, ← ha, ← hb, dstThenO, opWrite_view, ← BitVec.toNat_and, mask16_toNat]
  rfl

theorem execute_bor : Pseudo.execute 0xA f.dst dB (view f.st) = view (dstThenO f (f.a ||| f.b) none) := by
  simp only [Pseudo.execute, opRead_view, ← ha, ← hb, dstThenO, opWrite_view, ← BitVec.toNat_or, mask16_toNat]
  rfl

theorem execute_xor : Pseudo.execute 0xB f.dst dB (view f.st) = view (dstThenO f (f.a ^^^ f.b) none) := by
  simp only [Pseudo.execute, opRead_view, ← ha, ← hb, dstThenO, opWrite_view, ← BitVec.toNat_xor, mask16_toNat]
  rfl

theorem execute_ife : Pseudo.execute 0xC f.dst dB (view f.st) = view (skipUnless (decide (f.a = f.b)) f.st) := by
  simp only [Pseudo.execute, opRead_view, ← ha, ← hb, executeIf_view, BitVec.toNat_inj]

theorem execute_ifn : Pseudo.execute 0xD f.dst dB (view f.st) = view (skipUnless (decide (f.a ≠ f.b)) f.st) := by
  simp only [Pseudo.execute, opRead_view, ← ha, ← hb, executeIf_view, ne_eq, BitVec.toNat_inj]

theorem execute_ifg :
    Pseudo.execute 0xE f.dst dB (view f.st) = view (skipUnless (decide (f.a.toNat > f.b.toNat)) f.st) := by
  simp only [Pseudo.execute, opRead_view, ← ha, ← hb, executeIf_view]

theorem execute_ifb :
    Pseudo.execute 0xF f.dst dB (view f.st) = view (skipUnless (decide (f.a &&& f.b ≠ 0)) f.st) := by
  have h0 : f.a.toNat &&& f.b.toNat = 0 ↔ f.a &&& f.b = 0 := by rw [BitVec.toNat_eq, BitVec.toNat_and]; rfl
  simp only [Pseudo.execute, opRead_view, ← ha, ← hb, executeIf_view, ne_eq, h0]

end

theorem executeExt_jsr (d : Desc) (s : State) :
    Pseudo.executeExt 0x01 d (view s) = view ((pushWord s.pc s).setReg .pc (opRead d (pushWord s.pc s))) := by
  simp [Pseudo.executeExt, opRead_view, mask16_sub_one]
  rfl

theorem executeExt_nop {n : Nat} (h : n ≠ 1) (d : Desc) (p : Pseudo.View) : Pseudo.executeExt n d p = p :=
  if_neg h

/-! ## The whole step -/

/-- What `Pseudo.step` does once the word `w` is fetched. -/
def pseudoRun (w : Word) (p : Pseudo.View) : Pseudo.View :=
  if w.toNat % 16 = 0 then
    let rB := Pseudo.resolve (w.toNat / 1024) p
    Pseudo.executeExt (w.toNat / 16 % 64) rB.1 rB.2
  else
    let rA := Pseudo.resolve (w.toNat / 16 % 64) p
    let rB := Pseudo.resolve (w.toNat / 1024) rA.2
    Pseudo.execute (w.toNat % 16) rA.1 rB.1 rB.2

theorem pseudoStep_eq (p : Pseudo.View) : Pseudo.step p = pseudoRun (Pseudo.nextWord p).1 (Pseudo.nextWord p).2 := rfl

theorem pseudoRun_basic {o : BitVec 4} (h : o.toNat ≠ 0) (b a : Operand) (s : State) :
    pseudoRun (packWord b.code a.code o) (view s) =
      Pseudo.execute o.toNat (fetchOperands a b s).dst (resolve b (resolve a s).2).1
        (view (fetchOperands a b s).st) := by
  simp only [pseudoRun, ← opField_toNat, ← aField_toNat, ← bField_toNat, opField_packWord, aField_packWord,
    bField_packWord, if_neg h, resolve_view]
  rfl

theorem pseudoRun_extended (b : Operand) (sel : BitVec 6) (s : State) :
    pseudoRun (packWord b.code sel 0) (view s) =
      Pseudo.executeExt sel.toNat (resolve b s).1 (view (resolve b s).2) := by
  simp only [pseudoRun, ← opField_toNat, ← aField_toNat, ← bField_toNat, opField_packWord, aField_packWord,
    bField_packWord, resolve_view]
  rfl

/-- In the extended form, no selector but 0x01 does anything with the resolved operand. -/
theorem pseudoRun_nop (b : Operand) {sel : BitVec 6} (h : sel.toNat ≠ 1) (s : State) :
    pseudoRun (packWord b.code sel 0) (view s) = view (resolve b s).2 := by
  rw [pseudoRun_extended, executeExt_nop h]

theorem exec_view_basic {i : Instr} {a b : Operand} {o : BitVec 4} {s t : State} (ho : o.toNat ≠ 0)
    (hword : encode i = packWord b.code a.code o) (hexec : exec i s = .next t)
    (hrun : Pseudo.execute o.toNat (fetchOperands a b s).dst (resolve b (resolve a s).2).1
      (view (fetchOperands a b s).st) = view t) :
    ∃ t, exec i s = .next t ∧ view t = pseudoRun (encode i) (view s) :=
  ⟨t, hexec, by rw [hword, pseudoRun_basic ho, hrun]⟩

theorem exec_view_nop {i : Instr} {b : Operand} {sel : BitVec 6} (hsel : sel.toNat ≠ 1)
    (hword : encode i = packWord b.code sel 0x0) (hnop : extNopOperand i = some b) (s : State) :
    ∃ t, exec i s = .next t ∧ view t = pseudoRun (encode i) (view s) :=
  ⟨_, exec_extNop hnop s, by rw [hword, pseudoRun_nop b hsel]⟩

theorem ne_one_of_selectorIn {lo hi sel : BitVec 6} (hlo : 1 < lo.toNat) (h : selectorIn lo hi sel = true) :
    sel.toNat ≠ 1 := by
  obtain ⟨hle, -⟩ := selectorIn_iff.1 h
  omega

/-- An instruction's `exec` is the pseudocode run on the instruction's word: one opcode lemma each, and one for all the
EXT_NOP rows, whose selectors are not JSR's. -/
theorem exec_view {i : Instr} (h : i.wf = true) (s : State) :
    ∃ t, exec i s = .next t ∧ view t = pseudoRun (encode i) (view s) := by
  cases i
  case set a b => exact exec_view_basic (o := 0x1) (by decide) rfl (exec_set a b s) (execute_set rfl)
  case add a b => exact exec_view_basic (o := 0x2) (by decide) rfl (exec_add a b s) (execute_add rfl rfl)
  case sub a b => exact exec_view_basic (o := 0x3) (by decide) rfl (exec_sub a b s) (execute_sub rfl rfl)
  case mul a b => exact exec_view_basic (o := 0x4) (by decide) rfl (exec_mul a b s) (execute_mul rfl rfl)
  case div a b => exact exec_view_basic (o := 0x5) (by decide) rfl (exec_div a b s) (execute_div rfl rfl)
  case mod a b => exact exec_view_basic (o := 0x6) (by decide) rfl (exec_mod a b s) (execute_mod rfl rfl)
  case shl a b => exact exec_view_basic (o := 0x7) (by decide) rfl (exec_shl a b s) (execute_shl rfl rfl)
  case shr a b => exact exec_view_basic (o := 0x8) (by decide) rfl (exec_shr a b s) (execute_shr rfl rfl)
  case and a b => exact exec_view_basic (o := 0x9) (by decide) rfl (exec_and a b s) (execute_and rfl rfl)
  case bor a b => exact exec_view_basic (o := 0xA) (by decide) rfl (exec_bor a b s) (execute_bor rfl rfl)
  case xor a b => exact exec_view_basic (o := 0xB) (by decide) rfl (exec_xor a b s) (execute_xor rfl rfl)
  case ife a b => exact exec_view_basic (o := 0xC) (by decide) rfl (exec_ife a b s) (execute_ife rfl rfl)
  case ifn a b => exact exec_view_basic (o := 0xD) (by decide) rfl (exec_ifn a b s) (execute_ifn rfl rfl)
  case ifg a b => exact exec_view_basic (o := 0xE) (by decide) rfl (exec_ifg a b s) (execute_ifg rfl rfl)
  case ifb a b => exact exec_view_basic (o := 0xF) (by decide) rfl (exec_ifb a b s) (execute_ifb rfl rfl)
  case extNop02 sel b => exact exec_view_nop (ne_one_of_selectorIn (by decide) h) rfl rfl s
  case extNop04 sel b => exact exec_view_nop (ne_one_of_selectorIn (by decide) h) rfl rfl s
  case extNop08 sel b => exact exec_view_nop (ne_one_of_selectorIn (by decide) h) rfl rfl s
  case extNop10 sel b => exact exec_view_nop (ne_one_of_selectorIn (by decide) h) rfl rfl s
  case extNop20 sel b => exact exec_view_nop (ne_one_of_selectorIn (by decide) h) rfl rfl s
  case jsr b => exact ⟨_, exec_jsr b s, by rw [encode, pseudoRun_extended]; exact (executeExt_jsr _ _).symm⟩
  case extNop00 b => exact exec_view_nop (sel := 0x00) (by decide) rfl rfl s

theorem step_view (s : State) : ∃ t, step s = .next t ∧ view t = Pseudo.step (view s) := by
  obtain ⟨t, hexec, hview⟩ := exec_view (wf_decode (s.cell s.pc)) (nextWord s).2
  rw [encode_decode] at hview
  exact ⟨t, hexec, by rw [hview, pseudoStep_eq, nextWord_view]; rfl⟩

theorem view_eq_iff_alike {s t : State} : view s = view t ↔ Alike s t := by
  rw [Pseudo.View.ext_iff, funext_iff, funext_iff]
  rfl

end Sys2Proof.Machine

namespace Sys2Proof
open Machine

/-- Settles O51: the word at PC is the encoding of the instruction it decodes to, and each instruction's `exec` is the
pseudocode run on its word. -/
theorem stepFollowsThePseudocode : Obligations.StepFollowsThePseudocode := step_view

/-- Settles O52: states that look alike have the same view, and the pseudocode's next view depends on the view alone. -/
theorem stepDependsOnlyOnRegistersAndCells : Obligations.StepDependsOnlyOnRegistersAndCells := by
  intro s s' t halike hstep
  obtain ⟨u, hu, hview⟩ := step_view s
  obtain rfl : u = t := Host.Outcome.next.inj (hu.symm.trans hstep)
  obtain ⟨t', ht', hview'⟩ := step_view s'
  refine ⟨t', ht', view_eq_iff_alike.1 ?_⟩
  rw [hview, hview', view_eq_iff_alike.2 halike]

end Sys2Proof
end

section
/-! The canonical form as a normal form (spec/10_state.md section 6): every image has one canonical list and only one;
and what loading an image leaves in the cells. -/

namespace Sys2Proof.Machine

/-! ## Every image has a canonical list -/

/-- The image is written word by word from address 0 up. -/
theorem exists_wf_reading_below (f : Word → Word) (n : Nat) :
    ∃ m : Memory, Memory.wf m ∧ ∀ addr : Word, addr.toNat < n → Memory.read m addr = f addr := by
  induction n with
  | zero => exact ⟨[], Memory.wf_nil, fun _ h => absurd h (Nat.not_lt_zero _)⟩
  | succ n ih =>
    obtain ⟨m, hwf, hread⟩ := ih
    refine ⟨Memory.write m (mask16 n) (f (mask16 n)), Memory.wf_write hwf _ _, fun addr hlt => ?_⟩
    rw [Memory.read_write]
    split
    case isTrue h => rw [h]
    case isFalse h =>
      have hne : addr.toNat ≠ n := fun e => h (by rw [← e, mask16_toNat])
      exact hread addr (by omega)

/-! ## Only one -/

theorem Memory.read_of_mem {m : Memory} (hrising : m.Pairwise (fun p q => p.1 < q.1)) {addr v : Word}
    (h : (addr.toNat, v) ∈ m) : Memory.read m addr = v := by
  induction m with
  | nil => simp at h
  | cons p rest ih =>
    obtain ⟨hp, hrest⟩ := List.pairwise_cons.1 hrising
    rcases List.mem_cons.1 h with rfl | hmem
    · exact if_pos rfl
    · rw [Memory.read, if_neg (Nat.ne_of_lt (hp _ hmem))]
      exact ih hrest hmem

theorem Memory.mem_of_read {m : Memory} {addr : Word} (h : Memory.read m addr ≠ Memory.unlisted) :
    (addr.toNat, Memory.read m addr) ∈ m := by
  induction m with
  | nil => exact absurd rfl h
  | cons p rest ih =>
    rw [Memory.read] at h ⊢
    split at h
    case isTrue hp => rw [if_pos hp, ← hp]; exact List.mem_cons_self
    case isFalse hp => rw [if_neg hp]; exact List.mem_cons_of_mem _ (ih h)

/-- In a canonical list the entries are the cells that do not hold what an unlisted one reads as. -/
theorem Memory.mem_iff_read {m : Memory} (hwf : Memory.wf m) (p : Nat × Word) :
    p ∈ m ↔ p.1 < Config.memWords ∧ p.2 ≠ Memory.unlisted ∧ Memory.read m (mask16 p.1) = p.2 := by
  obtain ⟨k, v⟩ := p
  have htoNat (hk : k < Config.memWords) : (mask16 k).toNat = k := by
    rw [BitVec.toNat_ofNat]; exact Nat.mod_eq_of_lt hk
  constructor
  · intro h
    obtain ⟨hk, hv⟩ := hwf.2 _ h
    exact ⟨hk, hv, Memory.read_of_mem hwf.1 (by rwa [htoNat hk])⟩
  · rintro ⟨hk, hv, hread⟩
    have hmem := Memory.mem_of_read (hread.trans_ne hv)
    rwa [htoNat hk, hread] at hmem

/-- A strictly rising list is determined by its entries, and these by what the list reads as. -/
theorem Memory.ext_of_wf {m m' : Memory} (hm : Memory.wf m) (hm' : Memory.wf m')
    (h : ∀ addr, Memory.read m addr = Memory.read m' addr) : m = m' := by
  have hasymm : Std.Asymm (fun p q : Nat × Word => p.1 < q.1) := ⟨fun _ _ => Nat.lt_asymm⟩
  refine List.Pairwise.eq_of_mem_iff hm.1 hm'.1 fun p => ?_
  rw [Memory.mem_iff_read hm, Memory.mem_iff_read hm', h]

/-! ## Loading: the writes of `boot`, from any state -/

theorem load_reg (image : List (Word × Word)) (s : State) (r : Reg) :
    (image.foldl (fun s p => writeMem s p.1 p.2) s).reg r = s.reg r := by
  induction image generalizing s with
  | nil => rfl
  | cons p rest ih => exact (ih _).trans (State.setCell_reg s p.1 p.2 r)

theorem load_cell_of_notMem {image : List (Word × Word)} {addr : Word} (h : addr ∉ image.map Prod.fst) (s : State) :
    (image.foldl (fun s p => writeMem s p.1 p.2) s).cell addr = s.cell addr := by
  induction image generalizing s with
  | nil => rfl
  | cons p rest ih =>
    rw [List.map_cons, List.mem_cons, not_or] at h
    rw [List.foldl_cons, ih h.2, writeMem, State.setCell_cell, if_neg h.1]

/-- Where no address is named twice, no later write reaches a cell already written. -/
theorem load_cell_of_mem {image : List (Word × Word)} (hnodup : (image.map Prod.fst).Nodup) {p : Word × Word}
    (hp : p ∈ image) (s : State) : (image.foldl (fun s p => writeMem s p.1 p.2) s).cell p.1 = p.2 := by
  induction image generalizing s with
  | nil => simp at hp
  | cons q rest ih =>
    obtain ⟨hq, hrest⟩ := List.nodup_cons.1 hnodup
    rcases List.mem_cons.1 hp with rfl | hmem
    · rw [List.foldl_cons, load_cell_of_notMem hq, writeMem, State.setCell_cell, if_pos rfl]
    · exact ih hrest hmem _

end Sys2Proof.Machine

namespace Sys2Proof
open Machine

/-- Settles O8: every address is below 65536, so writing that many words writes all of the image. -/
theorem everyImageIsACanonicalMemory : Obligations.EveryImageIsACanonicalMemory := by
  intro f
  obtain ⟨m, hwf, hread⟩ := exists_wf_reading_below f Config.memWords
  exact ⟨m, hwf, fun addr => hread addr addr.isLt⟩

/-- Settles O9: both lists have the same entries in the same order. -/
theorem canonicalMemoriesThatReadAlikeAreEqual : Obligations.CanonicalMemoriesThatReadAlikeAreEqual :=
  fun _ _ hm hm' h => Memory.ext_of_wf hm hm' h

/-- Settles O12: from reset, where every cell reads as 0. -/
theorem bootHoldsTheImage : Obligations.BootHoldsTheImage :=
  fun image hnodup => ⟨fun _ hp => load_cell_of_mem hnodup hp State.reset,
    fun _ h => load_cell_of_notMem h State.reset, load_reg image State.reset⟩

/-- Settles O13: the host's operations are the state's own accessors and cell write. -/
theorem hostWriteThenRead : Obligations.HostWriteThenRead := by
  intro s addr v
  refine ⟨fun r => rfl, fun any => rfl, ?_, fun other hne => ?_, fun r => State.setCell_reg s addr v r⟩
  · rw [readMem, writeMem, State.setCell_cell, if_pos rfl]
  · rw [readMem, writeMem, State.setCell_cell, if_neg hne, readMem]

end Sys2Proof
end

section
/-! Operands that take a trailing word, and when an operand's address and value are bound
(spec/40_operand_resolver.md section 3). SET with fixed operands is a known next state, written out in each clause. -/

namespace Sys2Proof

theorem decodeOperand_memRegNext (n : BitVec 3) :
    decodeOperand (0x10 + n.setWidth 6) = .memRegNext (GReg.ofIndex n) := by
  rw [decodeOperand_eq_iff, Operand.code, GReg.index_ofIndex]

end Sys2Proof

namespace Sys2Proof.Machine

@[simp] theorem State.pushSp_general (s : State) (g : GReg) : s.pushSp.reg (generalReg g) = s.reg (generalReg g) := by
  cases g <;> rfl

@[simp] theorem State.popSp_general (s : State) (g : GReg) : s.popSp.reg (generalReg g) = s.reg (generalReg g) := by
  cases g <;> rfl

/-- Writing to a cell the word it holds changes nothing one can read. -/
theorem alike_setCell_cell (s : State) (addr : Word) : Alike (s.setCell addr (s.cell addr)) s := by
  refine ⟨State.setCell_reg s addr _, fun addr' => ?_⟩
  rw [State.setCell_cell]
  split
  case isTrue h => rw [h]
  case isFalse => rfl

theorem exec_set_push_reg (g : GReg) (s : State) :
    exec (.set .push (.reg g)) s = .next (s.pushSp.setCell (s.sp - 1) (s.reg (generalReg g))) := by
  rw [← State.pushSp_general]
  rfl

theorem exec_set_reg_pop (g : GReg) (s : State) :
    exec (.set (.reg g) .pop) s = .next (s.popSp.setReg (generalReg g) (s.cell s.sp)) := rfl

/-- SP one down and one up again, in either order, wrapping or not (R25). -/
@[simp] theorem State.pushSp_popSp (s : State) : s.pushSp.popSp = s := by
  simp [State.pushSp, State.popSp]

@[simp] theorem State.popSp_pushSp (s : State) : s.popSp.pushSp = s := by
  simp [State.pushSp, State.popSp]

end Sys2Proof.Machine

namespace Sys2Proof
open Machine

/-- Settles O16: adding words is adding their values modulo 2^16. -/
theorem nextWordOperandCodesResolve : Obligations.NextWordOperandCodesResolve := by
  intro s
  refine ⟨fun n => ?_, resolve_decodeOperand_code .memNext s, resolve_decodeOperand_code .litNext s⟩
  rw [decodeOperand_memRegNext, mask16_toNat_add, mask16_toNat]
  rfl

/-- Settles O17: the order and the reads are `fetchOperands`'s own; PC and SP add up over the two resolutions. -/
theorem operandsResolveInOrderThenAreRead : Obligations.OperandsResolveInOrderThenAreRead :=
  fun a b s => ⟨fetchOperands_dst a b s, rfl, rfl, rfl, fetchOperands_pc a b s, fetchOperands_sp a b s⟩

/-- Settles O19: the state A left, in which B takes its word, has PC one on. -/
theorem firstTrailingWordIsOperandAs : Obligations.FirstTrailingWordIsOperandAs := fun s =>
  ⟨((s.advance 1).advance 1).setCell (s.cell s.pc) (s.cell (s.pc + 1)), rfl, BitVec.add_assoc s.pc 1 1, by simp⟩

/-- Settles O20: each clause's next state shows what the operands bound. -/
theorem bindingTimesOfOperands : Obligations.BindingTimesOfOperands := by
  intro s
  refine ⟨?pushSp, ?popSp, ?spPop, ?pushPeek, ?popPeek, ?popPop, ?regPc, ?memNextPc⟩
  case pushSp => exact ⟨s.pushSp.setCell (s.sp - 1) (s.sp - 1), rfl, rfl, by simp⟩
  case popSp => exact ⟨s.popSp.setCell s.sp (s.sp + 1), rfl, rfl, by simp⟩
  case spPop => exact ⟨s.popSp.setReg .sp (s.cell s.sp), rfl, rfl⟩
  case pushPeek => exact ⟨s.pushSp.setCell (s.sp - 1) (s.cell (s.sp - 1)), rfl, alike_setCell_cell s.pushSp (s.sp - 1)⟩
  case popPeek => exact ⟨s.popSp.setCell s.sp (s.cell (s.sp + 1)), rfl, rfl, by simp⟩
  case popPop => exact ⟨s.popSp.popSp.setCell s.sp (s.cell (s.sp + 1)), rfl, BitVec.add_assoc s.sp 1 1, by simp⟩
  case regPc => exact ⟨s.setReg .a s.pc, rfl, rfl⟩
  case memNextPc => exact ⟨(s.advance 1).setCell (s.cell s.pc) (s.pc + 1), rfl, by simp⟩

/-- Settles O21: both operands bind one cell, and it is given its own word. -/
theorem pushPopAliasesChangeNothing : Obligations.PushPopAliasesChangeNothing := by
  intro s
  refine ⟨⟨s.pushSp.popSp.setCell (s.sp - 1) (s.cell (s.sp - 1)), rfl, ?_⟩,
    ⟨s.popSp.pushSp.setCell s.sp (s.cell (s.sp + 1 - 1)), rfl, ?_⟩⟩
  · rw [State.pushSp_popSp]
    exact alike_setCell_cell s _
  · rw [State.popSp_pushSp, BitVec.add_sub_cancel]
    exact alike_setCell_cell s _

/-- Settles O22: the pop binds the cell the push wrote. -/
theorem pushThenPopRestores : Obligations.PushThenPopRestores := by
  intro g h s
  refine ⟨_, _, exec_set_push_reg g s, exec_set_reg_pop h _, ?_, ?_, ?_, fun k => ?_⟩
  · simp
  · simp
  · simp
  · simp [State.reg_setReg, generalReg_injective.eq_iff, eq_comm]

end Sys2Proof
end

section
/-! The basic opcodes with an effect on O of their own: ADD, SUB, MUL, DIV, SHL, SHR (spec/42_basic_alu.md R97-R100,
R102, R103). Each result and each effect on O is first given the form its rule states. -/

namespace Sys2Proof.Machine

/-! ## The whole effect by the order of the two writes (R90) -/

theorem exec_writes_of_dstThenO {i : Instr} {a b : Operand} {s : State} {v r : Word} {o : Option Word}
    {oAfter oDst : Word} (h : exec i s = .next (dstThenO (fetchOperands a b s) v o)) (hv : v = r)
    (ho : o.getD s.o = oAfter) (hoDst : o.getD r = oDst) :
    ∃ t, exec i s = .next t ∧ WritesResult a b (resolve a s).1 r oAfter oDst s t := by
  subst hv ho hoDst
  exact ⟨_, h, dstThenO_writes a b s v o⟩

theorem exec_writes_of_oThenDst {i : Instr} {a b : Operand} {s : State} {v : Word} {o : Option Word} {oAfter : Word}
    (h : exec i s = .next (oThenDst (fetchOperands a b s) v o)) (ho : o.getD s.o = oAfter) :
    ∃ t, exec i s = .next t ∧ WritesResult a b (resolve a s).1 v oAfter v s t := by
  subst ho
  exact ⟨_, h, oThenDst_writes a b s v o⟩

/-! ## Results and effects on O -/

theorem addResult_eq (x y : Word) : addResult x y = x + y := by
  rw [addResult, mask16_toNat_add, mask16_toNat]

theorem addO_getD (x y z : Word) : (addO x y).getD z = if x.toNat + y.toNat > 0xFFFF then 1 else z := by
  unfold addO
  split_ifs <;> rfl

theorem subResult_eq (x y : Word) : subResult x y = x - y := by
  unfold subResult
  split_ifs <;> bv_omega

theorem subO_getD (x y z : Word) : (subO x y).getD z = if x.toNat < y.toNat then 0xFFFF else z := by
  unfold subO
  split_ifs <;> rfl

theorem mulResult_eq (x y : Word) : mulResult x y = x * y := BitVec.eq_of_toNat_eq (by simp [mulResult])

theorem mulO_getD (x y z : Word) :
    (mulO x y).getD z = if x.toNat * y.toNat > 0xFFFF then mask16 (x.toNat * y.toNat / 2 ^ 16) else z := by
  unfold mulO
  rw [Nat.shiftRight_eq_div_pow]
  split_ifs <;> rfl

theorem divO_eq (x y : Word) : divO x y = some (if y = 0 then 0 else mask16 (x.toNat * 2 ^ 16 / y.toNat)) := by
  rw [divO, Nat.shiftLeft_eq]

theorem shlResult_eq (x y : Word) : shlResult x y = mask16 (x.toNat * 2 ^ y.toNat) := by
  rw [shlResult, Nat.shiftLeft_eq]

theorem shlO_eq (x y : Word) : shlO x y = some (mask16 (x.toNat * 2 ^ y.toNat / 2 ^ 16)) := by
  rw [shlO, Nat.shiftLeft_eq, Nat.shiftRight_eq_div_pow]

theorem shrResult_eq (x y : Word) : shrResult x y = mask16 (x.toNat / 2 ^ y.toNat) := by
  rw [shrResult, Nat.shiftRight_eq_div_pow]

theorem shrO_eq (x y : Word) : shrO x y = some (mask16 (x.toNat * 2 ^ 16 / 2 ^ y.toNat)) := by
  rw [shrO, Nat.shiftLeft_eq, Nat.shiftRight_eq_div_pow]

/-! ## The shifts by the size of the count

Shifting left and then right is one shift by the difference, and one shift is the word's own. -/

theorem shiftLeft_shiftRight_of_le {m n : Nat} (h : m ≤ n) (x : Nat) : (x <<< m) >>> n = x >>> (n - m) := by
  obtain ⟨k, rfl⟩ := Nat.exists_eq_add_of_le h
  rw [Nat.shiftRight_add, Nat.shiftLeft_shiftRight, Nat.add_sub_cancel_left]

theorem shiftLeft_shiftRight_of_ge {m n : Nat} (h : n ≤ m) (x : Nat) : (x <<< m) >>> n = x <<< (m - n) := by
  obtain ⟨k, rfl⟩ := Nat.exists_eq_add_of_le' h
  rw [Nat.shiftLeft_add, Nat.shiftLeft_shiftRight, Nat.add_sub_cancel]

theorem mask16_shiftLeft (x : Word) (n : Nat) : mask16 (x.toNat <<< n) = x <<< n :=
  BitVec.eq_of_toNat_eq (by simp)

theorem mask16_shiftRight (x : Word) (n : Nat) : mask16 (x.toNat >>> n) = x >>> n := by
  rw [← BitVec.toNat_ushiftRight, mask16_toNat]

theorem shlO_of_le {x y : Word} (h : y.toNat ≤ 16) : shlO x y = some (x >>> (16 - y.toNat)) := by
  rw [shlO, shiftLeft_shiftRight_of_le h, mask16_shiftRight]

theorem shlO_of_ge {x y : Word} (h : 16 ≤ y.toNat) : shlO x y = some (x <<< (y.toNat - 16)) := by
  rw [shlO, shiftLeft_shiftRight_of_ge h, mask16_shiftLeft]

theorem shrO_of_le {x y : Word} (h : y.toNat ≤ 16) : shrO x y = some (x <<< (16 - y.toNat)) := by
  rw [shrO, shiftLeft_shiftRight_of_ge h, mask16_shiftLeft]

theorem shrO_of_ge {x y : Word} (h : 16 ≤ y.toNat) : shrO x y = some (x >>> (y.toNat - 16)) := by
  rw [shrO, shiftLeft_shiftRight_of_le h, mask16_shiftRight]

end Sys2Proof.Machine

namespace Sys2Proof
open Machine

/-- Settles O24: the carry's write of O comes last. -/
theorem addWritesSumAndCarry : Obligations.AddWritesSumAndCarry := fun a b s =>
  ⟨opField_packWord b.code a.code 0x2, exec_writes_of_dstThenO (exec_add a b s) (addResult_eq _ _) (addO_getD _ _ _)
    (addO_getD _ _ _)⟩

/-- Settles O25: the destination's write comes last. -/
theorem subWritesDifferenceAndBorrow : Obligations.SubWritesDifferenceAndBorrow := by
  intro a b s
  obtain ⟨t, ht, hwrites⟩ := exec_writes_of_oThenDst (exec_sub a b s) (subO_getD _ _ _)
  exact ⟨opField_packWord b.code a.code 0x3, t, ht, subResult_eq _ _, hwrites⟩

/-- Settles O26: the high word's write of O comes last. -/
theorem mulWritesProductAndHighWord : Obligations.MulWritesProductAndHighWord := fun a b s =>
  ⟨opField_packWord b.code a.code 0x4, exec_writes_of_dstThenO (exec_mul a b s) (mulResult_eq _ _) (mulO_getD _ _ _)
    (mulO_getD _ _ _)⟩

/-- Settles O27: O is always written, and last. -/
theorem divWritesQuotientAndFraction : Obligations.DivWritesQuotientAndFraction := fun a b s =>
  ⟨opField_packWord b.code a.code 0x5, exec_writes_of_dstThenO (exec_div a b s) rfl (by rw [divO_eq]; rfl)
    (by rw [divO_eq]; rfl)⟩

/-- Settles O29: O is always written, and last. -/
theorem shlWritesLowAndNextBits : Obligations.ShlWritesLowAndNextBits := fun a b s =>
  ⟨opField_packWord b.code a.code 0x7, exec_writes_of_dstThenO (exec_shl a b s) (shlResult_eq _ _)
    (by rw [shlO_eq]; rfl) (by rw [shlO_eq]; rfl)⟩

/-- Settles O30: O is always written, and last. -/
theorem shrWritesHighAndLostBits : Obligations.ShrWritesHighAndLostBits := fun a b s =>
  ⟨opField_packWord b.code a.code 0x8, exec_writes_of_dstThenO (exec_shr a b s) (shrResult_eq _ _)
    (by rw [shrO_eq]; rfl) (by rw [shrO_eq]; rfl)⟩

/-- Settles O34: a shift by the width or more leaves nothing. -/
theorem shlByTheSizeOfTheCount : Obligations.ShlByTheSizeOfTheCount := by
  intro x n
  rw [shlResult, mask16_shiftLeft]
  refine ⟨fun h => ?zero, fun ⟨_, h⟩ => ?low, fun h => ?sixteen, fun ⟨h, _⟩ => ?high, fun h => ?beyond⟩
  case zero => rw [shlO_of_le (by omega), h, BitVec.ushiftRight_eq_zero (Nat.le_refl 16)]; simp
  case low => rw [shlO_of_le (by omega)]; exact ⟨rfl, rfl⟩
  case sixteen => rw [shlO_of_le (by omega), h]; simp
  case high => rw [shlO_of_ge (by omega), BitVec.shiftLeft_eq_zero (by omega)]; exact ⟨rfl, rfl⟩
  case beyond =>
    rw [shlO_of_ge (by omega), BitVec.shiftLeft_eq_zero (by omega), BitVec.shiftLeft_eq_zero (by omega)]
    exact ⟨rfl, rfl⟩

/-- Settles O35: a shift by the width or more leaves nothing. -/
theorem shrByTheSizeOfTheCount : Obligations.ShrByTheSizeOfTheCount := by
  intro x n
  rw [shrResult, mask16_shiftRight]
  refine ⟨fun h => ?zero, fun ⟨_, h⟩ => ?low, fun h => ?sixteen, fun ⟨h, _⟩ => ?high, fun h => ?beyond⟩
  case zero => rw [shrO_of_le (by omega), h]; simp
  case low => rw [shrO_of_le (by omega)]; exact ⟨rfl, rfl⟩
  case sixteen => rw [shrO_of_le (by omega), h, BitVec.ushiftRight_eq_zero (Nat.le_refl 16)]; simp
  case high => rw [shrO_of_ge (by omega), BitVec.ushiftRight_eq_zero (by omega)]; exact ⟨rfl, rfl⟩
  case beyond =>
    rw [shrO_of_ge (by omega), BitVec.ushiftRight_eq_zero (by omega), BitVec.ushiftRight_eq_zero (by omega)]
    exact ⟨rfl, rfl⟩

end Sys2Proof
end

section
/-! The skip, the calls and the EXT_NOP rows (spec/43_conditional_skip.md R114-R116, spec/44_extended.md R118-R121). -/

namespace Sys2Proof.Machine

theorem State.advance_reg (s : State) (n : Nat) {r : Reg} (h : r ≠ .pc) : (s.advance n).reg r = s.reg r := by
  change (s.setReg .pc (s.pc + mask16 n)).reg r = s.reg r
  rw [State.reg_setReg, if_neg h.symm]

@[simp] theorem skip_pc (s : State) : (skip s).pc = s.pc + mask16 (1 + (decode (s.cell s.pc)).trailing) := by
  rw [skip, State.advance_pc, lenWord_eq]

@[simp] theorem State.setReg_pc_general (s : State) (v : Word) (g : GReg) :
    (s.setReg .pc v).reg (generalReg g) = s.reg (generalReg g) := by
  rw [State.reg_setReg, if_neg (generalReg_ne_pc g).symm]

/-! ## JSR -/

/-- The state after JSR's push: PC and SP as the operand left them, SP one further down, and PC, which is the return
address, in the cell there. -/
def jsrPushed (b : Operand) (s : State) : State :=
  { s with
    pc := s.pc + mask16 b.trailing
    sp := s.sp + spShift b - 1
    mem := Memory.write s.mem (s.sp + spShift b - 1) (s.pc + mask16 b.trailing) }

@[simp] theorem jsrPushed_pc (b : Operand) (s : State) : (jsrPushed b s).pc = s.pc + mask16 b.trailing := rfl
@[simp] theorem jsrPushed_sp (b : Operand) (s : State) : (jsrPushed b s).sp = s.sp + spShift b - 1 := rfl
@[simp] theorem jsrPushed_o (b : Operand) (s : State) : (jsrPushed b s).o = s.o := rfl
@[simp] theorem jsrPushed_general (b : Operand) (s : State) (g : GReg) :
    (jsrPushed b s).reg (generalReg g) = s.reg (generalReg g) := by
  cases g <;> rfl
@[simp] theorem jsrPushed_cell (b : Operand) (s : State) (addr : Word) :
    (jsrPushed b s).cell addr =
      if addr = s.sp + spShift b - 1 then s.pc + mask16 b.trailing else s.cell addr :=
  Memory.read_write s.mem _ addr _

/-- JSR reads its target in the state after the push and puts it in PC. -/
theorem exec_jsr_eq (b : Operand) (s : State) :
    exec (.jsr b) s = .next ((jsrPushed b s).setReg .pc (opRead (resolve b s).1 (jsrPushed b s))) := by
  rw [exec_jsr, pushWord_eq, resolve_state]
  rfl

/-- The return (R121). -/
theorem exec_set_pc_pop (s : State) : exec (.set .pc .pop) s = .next (s.popSp.setReg .pc (s.cell s.sp)) := rfl

end Sys2Proof.Machine

namespace Sys2Proof
open Machine

/-- Settles O40: the length of the word skipped is that of its decoded instruction. -/
theorem skipMovesOnlyPcPastOneInstruction : Obligations.SkipMovesOnlyPcPastOneInstruction :=
  fun s => ⟨skip_pc s, fun _ h => State.advance_reg s _ h, rfl⟩

/-- Settles O42: the target is read through the operand's descriptor, in the state after the push. -/
theorem jsrPushesThenJumps : Obligations.JsrPushesThenJumps := by
  intro b s
  refine ⟨_, exec_jsr_eq b s, rfl, rfl, fun g => ?_, fun addr => ?_, ?_⟩
  · simp
  · simp
  · rw [State.setReg_pc, if_pos rfl]
    cases (resolve b s).1 with
    | reg r => cases r <;> rfl
    | mem addr => exact jsrPushed_cell b s addr
    | lit v => rfl

/-- Settles O43: SP after the JSR names the cell with the return address, and the pop undoes the push. -/
theorem popIntoPcReturnsFromJsr : Obligations.PopIntoPcReturnsFromJsr := by
  intro b s t h
  obtain rfl := Host.Outcome.next.inj ((exec_jsr_eq b s).symm.trans h)
  refine ⟨_, exec_set_pc_pop _, ?_, ?_, ?_, fun g => ?_⟩ <;> simp

/-- Settles O44: a row's `exec` is the resolution of its operand. -/
theorem extNopOnlyResolvesItsOperand : Obligations.ExtNopOnlyResolvesItsOperand :=
  fun _ b s h => ⟨_, exec_extNop h s, resolve_pc b s, resolve_sp b s, fun _ hpc hsp => resolve_reg b s hpc hsp,
    resolve_cell b s⟩

end Sys2Proof
end

section
/-! Which pieces of state an instruction may change (spec/10_state.md, spec/20_memory.md): a destination's write, a
conditional, a call or an EXT_NOP, each with its whole effect, and one frame rule for each piece of state. -/

namespace Sys2Proof.Machine

/-! ## What an instruction's kind says of its operands -/

theorem trailing_of_basicOperands {i : Instr} {a b : Operand} (h : basicOperands i = some (a, b)) :
    i.trailing = a.trailing + b.trailing := by
  cases i <;> cases h <;> rfl

theorem trailing_of_extNopOperand {i : Instr} {b : Operand} (h : extNopOperand i = some b) :
    i.trailing = b.trailing := by
  cases i <;> cases h <;> rfl

theorem extNopOperand_of_basicOperands {i : Instr} {p : Operand × Operand} (h : basicOperands i = some p) :
    extNopOperand i = none := by
  cases i <;> cases h <;> rfl

theorem storeAddress_of_destination {i : Instr} {a : Operand} (h : destination i = some a) {s : State} {addr : Word}
    (hd : (resolve a s).1 = .mem addr) : storeAddress i s = some addr := by
  cases i <;> cases h <;> simp [storeAddress, destination, hd]

/-! ## The four shapes of a next state, with their effects -/

/-- What `exec_cases` says, in terms of what each shape does to the registers and the cells. -/
theorem exec_effects {i : Instr} {s t : State} (h : exec i s = .next t) :
    (∃ a b v o oDst, basicOperands i = some (a, b) ∧ destination i = some a ∧ isIf i = false ∧
      (updatesO i = false → o = s.o) ∧ WritesResult a b (resolve a s).1 v o oDst s t) ∨
    (∃ a b c, basicOperands i = some (a, b) ∧ isIf i = true ∧ IfEffect a b c s t) ∨
    (∃ b target, i = .jsr b ∧ t = (jsrPushed b s).setReg .pc target) ∨
    (∃ b, extNopOperand i = some b ∧ t = (resolve b s).2) := by
  rcases exec_cases h with ⟨a, b, v, o, hops, hdst, hif, ho, ht⟩ | ⟨a, b, c, hops, -, hif, -, ht⟩ | ⟨b, rfl, -⟩ | hnop
  · have hsame : updatesO i = false → o.getD s.o = s.o := fun hu => by rw [ho hu]; rfl
    rcases ht with rfl | rfl
    · exact .inl ⟨a, b, v, _, _, hops, hdst, hif, hsame, dstThenO_writes a b s v o⟩
    · exact .inl ⟨a, b, v, _, _, hops, hdst, hif, hsame, oThenDst_writes a b s v o⟩
  · have heffect := skipUnless_effect a b (c = true) s
    rw [Bool.decide_eq_true, ← ht] at heffect
    exact .inr (.inl ⟨a, b, _, hops, hif, heffect⟩)
  · exact .inr (.inr (.inl ⟨b, _, rfl, Host.Outcome.next.inj (h.symm.trans (exec_jsr_eq b s))⟩))
  · exact .inr (.inr (.inr hnop))

/-! ## The frame rules -/

theorem exec_keeps_cell {i : Instr} {s t : State} (h : exec i s = .next t) {addr : Word}
    (hst : storeAddress i s ≠ some addr) :
    t.cell addr = s.cell addr := by
  rcases exec_effects h with ⟨a, b, v, o, oDst, -, hdst, -, -, -, -, -, -, hcell⟩ |
    ⟨a, b, c, -, -, -, -, -, hcell, -⟩ | ⟨b, target, rfl, rfl⟩ | ⟨b, -, rfl⟩
  · rw [hcell, if_neg fun hd => hst (storeAddress_of_destination hdst hd)]
  · exact hcell addr
  · have hne : addr ≠ s.sp + spShift b - 1 := by
      rintro rfl
      exact hst (by simp [storeAddress])
    rw [State.setReg_cell, jsrPushed_cell, if_neg hne]
  · exact resolve_cell b s addr

theorem exec_keeps_o {i : Instr} {s t : State} (h : exec i s = .next t) (hu : updatesO i = false)
    (hdst : destination i ≠ some .o) : t.o = s.o := by
  rcases exec_effects h with ⟨a, b, v, o, oDst, -, ha, -, hsame, -, -, -, ho, -⟩ | ⟨a, b, c, -, -, -, -, ho, -⟩ |
    ⟨b, target, -, rfl⟩ | ⟨b, -, rfl⟩
  · rw [ho, if_neg fun hd => hdst (by rw [ha, resolve_eq_o hd]), hsame hu]
  · exact ho
  · simp
  · exact resolve_o b s

theorem exec_keeps_general {i : Instr} {s t : State} {g : GReg} (h : exec i s = .next t)
    (hdst : destination i ≠ some (.reg g)) : t.reg (generalReg g) = s.reg (generalReg g) := by
  rcases exec_effects h with ⟨a, b, v, o, oDst, -, ha, -, -, hgen, -⟩ | ⟨a, b, c, -, -, hgen, -⟩ |
    ⟨b, target, -, rfl⟩ | ⟨b, -, rfl⟩
  · rw [hgen, if_neg fun hd => hdst (by rw [ha, resolve_eq_general hd])]
  · exact hgen g
  · simp
  · exact resolve_general b s g

theorem exec_basic_sp {i : Instr} {s t : State} {a b : Operand} (h : exec i s = .next t)
    (hops : basicOperands i = some (a, b)) (hdst : destination i ≠ some .sp) : t.sp = spAfter a b s := by
  rcases exec_effects h with ⟨a', b', v, o, oDst, hops', ha, -, -, -, hsp, -⟩ | ⟨a', b', c, hops', -, -, hsp, -⟩ |
    ⟨b', target, rfl, -⟩ | ⟨b', hnop, -⟩
  · obtain ⟨rfl, rfl⟩ := Prod.mk.inj (Option.some.inj (hops.symm.trans hops'))
    rw [hsp, if_neg fun hd => hdst (by rw [ha, resolve_eq_sp hd])]
  · obtain ⟨rfl, rfl⟩ := Prod.mk.inj (Option.some.inj (hops.symm.trans hops'))
    exact hsp
  · cases hops
  · rw [extNopOperand_of_basicOperands hops] at hnop
    cases hnop

/-- An instruction that is no call, no conditional and has no PC destination goes on to the next one. -/
theorem exec_pc_past_trailing {i : Instr} {s t : State} (h : exec i s = .next t) (hdst : destination i ≠ some .pc)
    (hjsr : ∀ b, i ≠ .jsr b) (hif : isIf i = false) : t.pc = s.pc + mask16 i.trailing := by
  rcases exec_effects h with ⟨a, b, v, o, oDst, hops, ha, -, -, -, -, hpc, -⟩ | ⟨a, b, c, -, htrue, -⟩ |
    ⟨b, target, rfl, -⟩ | ⟨b, hnop, rfl⟩
  · rw [hpc, if_neg fun hd => hdst (by rw [ha, resolve_eq_pc hd]), fetchOperands_pc, pcAfter,
      trailing_of_basicOperands hops]
  · rw [hif] at htrue
    cases htrue
  · exact absurd rfl (hjsr b)
  · rw [resolve_pc, trailing_of_extNopOperand hnop]

/-! ## SUB PC, 1 -/

theorem writeO_eq (o : Option Word) (s : State) : writeO o s = s.setReg .o (o.getD s.o) := by
  cases o <;> rfl

theorem exec_sub_pc_one (s : State) :
    exec (.sub .pc (.lit 1)) s =
      .next ((s.setReg .o (if s.pc.toNat < (1 : Word).toNat then 0xFFFF else s.o)).setReg .pc (s.pc - 1)) := by
  rw [← subO_getD, ← subResult_eq, ← writeO_eq]
  rfl

/-! ## The step's own PC -/

/-- PC one past the instruction's first word and then past its trailing words is where a skip would go. -/
theorem skip_pc_of_first_word (s : State) : (skip s).pc = s.pc + 1 + mask16 (decode (s.cell s.pc)).trailing := by
  rw [skip_pc, mask16, BitVec.ofNat_add, ← BitVec.add_assoc]
  rfl

theorem step_pc_eq_skip_pc {s t : State} (h : step s = .next t) (hdst : destination (decode (s.cell s.pc)) ≠ some .pc)
    (hjsr : ∀ b, decode (s.cell s.pc) ≠ .jsr b) (hif : isIf (decode (s.cell s.pc)) = false) :
    t.pc = (skip s).pc := by
  rw [exec_pc_past_trailing (step_eq s ▸ h) hdst hjsr hif, skip_pc_of_first_word]

end Sys2Proof.Machine

namespace Sys2Proof
open Machine

/-- Settles O41: both go past the first word and the trailing words. -/
theorem executingAndSkippingAdvanceAlike : Obligations.ExecutingAndSkippingAdvanceAlike :=
  fun _ _ h hdst hjsr hif => step_pc_eq_skip_pc h hdst hjsr hif

/-- Settles O53: the descriptor an instruction writes through, or the cell JSR pushes to, is where it stores. -/
theorem onlyTheComputedCellIsStored : Obligations.OnlyTheComputedCellIsStored :=
  fun _ _ _ h _ hst => exec_keeps_cell h hst

/-- Settles O54: only operand code O resolves to O, and only the six opcodes write it otherwise. -/
theorem onlyArithmeticOrDestinationChangesO : Obligations.OnlyArithmeticOrDestinationChangesO :=
  fun _ _ _ h hu hdst => exec_keeps_o h hu hdst

/-- Settles O55: only the register's own operand code resolves to it. -/
theorem generalRegistersChangeOnlyAsDestination : Obligations.GeneralRegistersChangeOnlyAsDestination :=
  fun _ _ _ _ h hdst => exec_keeps_general h hdst

/-- Settles O56: the shifts of the operands add up, and JSR's push takes one more. -/
theorem spChangesOnlyByStackUseOrDestination : Obligations.SpChangesOnlyByStackUseOrDestination := by
  intro i s t h hdst
  refine ⟨fun a b hops => exec_basic_sp h hops hdst, ?jsr, fun b hnop => ?nop⟩
  case jsr =>
    rintro b rfl
    obtain rfl := Host.Outcome.next.inj ((exec_jsr_eq b s).symm.trans h)
    simp
  case nop =>
    obtain rfl := Host.Outcome.next.inj ((exec_extNop hnop s).symm.trans h)
    exact resolve_sp b s

/-- Settles O57: the operand PC reads one past the instruction, so the difference is the instruction's own address. -/
theorem subPcOneIsASelfLoop : Obligations.SubPcOneIsASelfLoop := by
  intro s hword
  have hdecode : decode 0x85C3 = .sub .pc (.lit 1) := decode_encode (i := .sub .pc (.lit 1)) rfl
  have hborrow : (s.pc + 1).toNat < (1 : Word).toNat ↔ s.pc = 0xFFFF := by bv_omega
  refine ⟨_, by rw [step_eq, hword, hdecode, exec_sub_pc_one], fun r => ?_, fun addr => ?_⟩
  · simp only [hborrow, BitVec.add_sub_cancel]
    cases r <;> rfl
  · rw [State.setReg_cell, State.setReg_cell]
    rfl

end Sys2Proof
end

section
/-! The optional diagnostic (spec/00_scope.md R15, spec/60_exceptions.md R123): where it may be signalled, and what a
step with a literal destination leaves unchanged. -/

namespace Sys2Proof.Machine

/-! ## Where it may be signalled -/

theorem writeEvent_eq_some_iff (d : Desc) (e : Diagnostic) : writeEvent d = some e ↔ ∃ v, d = .lit v := by
  cases e
  cases d <;> simp [writeEvent]

theorem execEvent_eq_some_iff (i : Instr) (s : State) (e : Diagnostic) :
    execEvent i s = some e ↔ ∃ a, destination i = some a ∧ isLiteral a = true := by
  unfold execEvent
  cases destination i with
  | none => simp
  | some a => simp [writeEvent_eq_some_iff, resolve_eq_lit]

theorem stepEvent_eq (s : State) : stepEvent s = execEvent (decode (s.cell s.pc)) (s.advance 1) := rfl

theorem diagnosticAllowed_some_iff (s : State) (e : Diagnostic) :
    diagnosticAllowed s (some e) = true ↔
      ∃ a, destination (decode (s.cell s.pc)) = some a ∧ isLiteral a = true := by
  rw [← execEvent_eq_some_iff (decode (s.cell s.pc)) (s.advance 1) e, ← stepEvent_eq, eq_comm (a := stepEvent s)]
  simp only [diagnosticAllowed, reduceCtorEq, decide_false, Bool.false_or, decide_eq_true_eq]

/-! ## A literal destination -/

theorem destination_ne_of_isLiteral {i : Instr} {d p : Operand} (hd : destination i = some d)
    (hlit : isLiteral d = true) (hp : isLiteral p = false) : destination i ≠ some p := by
  rw [hd]
  rintro ⟨rfl⟩
  exact absurd hlit (by simp [hp])

theorem storeAddress_of_isLiteral {i : Instr} {d : Operand} (hd : destination i = some d)
    (hlit : isLiteral d = true) (s : State) : storeAddress i s = none := by
  obtain ⟨v, hv⟩ := (resolve_eq_lit d s).2 hlit
  cases i <;> cases hd <;> simp [storeAddress, destination, hv]

theorem isIf_of_destination {i : Instr} {d : Operand} (hd : destination i = some d) : isIf i = false := by
  cases i <;> cases hd <;> rfl

theorem ne_jsr_of_destination {i : Instr} {d : Operand} (hd : destination i = some d) (b : Operand) : i ≠ .jsr b := by
  rintro rfl
  cases hd

theorem spShift_of_isLiteral {a : Operand} (h : isLiteral a = true) : spShift a = 0 :=
  spShift_eq_zero (by rintro rfl; cases h) (by rintro rfl; cases h)

theorem destination_of_basicOperands {i : Instr} {a b d : Operand} (h : basicOperands i = some (a, b))
    (hd : destination i = some d) : d = a := by
  cases i <;> cases h <;> cases hd <;> rfl

end Sys2Proof.Machine

namespace Sys2Proof
open Machine

/-- Settles O60: a literal destination is no register, no cell and neither PC, SP nor O, so every frame rule applies. -/
theorem diagnosticOnlyForADiscardedWrite : Obligations.DiagnosticOnlyForADiscardedWrite := by
  intro s
  refine ⟨rfl, diagnosticAllowed_some_iff s _, fun hallowed => ?_⟩
  obtain ⟨d, hd, hlit⟩ := (diagnosticAllowed_some_iff s _).1 hallowed
  obtain ⟨t, ht⟩ := canStep s
  have hexec : exec (decode (s.cell s.pc)) (s.advance 1) = .next t := ht
  have hne {p : Operand} (hp : isLiteral p = false) := destination_ne_of_isLiteral hd hlit hp
  refine ⟨t, ht, fun g => ?general, fun addr => ?cell, fun a b hops => ?sp, fun hu => ?o, ?pc⟩
  case general => exact (exec_keeps_general hexec (hne rfl)).trans (State.advance_reg s 1 (generalReg_ne_pc g))
  case cell => exact exec_keeps_cell hexec (by simp [storeAddress_of_isLiteral hd hlit])
  case sp =>
    obtain rfl := destination_of_basicOperands hops hd
    have hsp := exec_basic_sp hexec hops (hne rfl)
    simpa [spAfter, spShift_of_isLiteral hlit] using hsp
  case o => exact (exec_keeps_o hexec hu (hne rfl)).trans (State.advance_o s 1)
  case pc => exact step_pc_eq_skip_pc ht (hne rfl) (ne_jsr_of_destination hd) (isIf_of_destination hd)

end Sys2Proof
end

section
/-! The host's run to a breakpoint (spec/00_scope.md R16, spec/70_reset_and_hazards.md R147): an induction over the
host's bound on the number of steps. -/

namespace Sys2Proof.Machine

/-! ## Runs of exactly `k` steps, from their first step -/

theorem StepsIn.zero_iff {s t : State} : StepsIn s 0 t ↔ t = s := by
  constructor
  · rintro ⟨⟩; rfl
  · rintro rfl; exact .zero

/-- The step is a function, so a run's first state after the start is the step's. -/
theorem StepsIn.succ_iff {s s' : State} (hstep : step s = .next s') {k : Nat} {t : State} :
    StepsIn s (k + 1) t ↔ StepsIn s' k t := by
  constructor
  · intro h
    induction k generalizing t with
    | zero =>
      obtain - | ⟨hzero, hlast⟩ := h
      obtain rfl := StepsIn.zero_iff.1 hzero
      exact StepsIn.zero_iff.2 (Host.Outcome.next.inj (hlast.symm.trans hstep))
    | succ k ih =>
      obtain - | ⟨hinit, hlast⟩ := h
      exact .succ (ih hinit) hlast
  · intro h
    induction h with
    | zero => exact .succ .zero hstep
    | succ _ hlast ih => exact .succ ih hlast

/-! ## How a run ends -/

/-- A run over breakpoints `bs` that is answered `(t, e)` after `k` of at most `n` steps, PC being tested after every
step: no state between the start and the end has PC in `bs`, and `e` says whether the end has. -/
structure RunEnds (bs : List Word) (n : Nat) (s : State) (k : Nat) (t : State) (e : RunEnd) : Prop where
  le_bound : k ≤ n
  stepsIn : StepsIn s k t
  between : ∀ j u, j + 1 < k → StepsIn s (j + 1) u → u.pc ∉ bs
  atBreakpoint : e = .atBreakpoint → 0 < k ∧ t.pc ∈ bs
  outOfSteps : e = .outOfSteps → k = n ∧ (0 < k → t.pc ∉ bs)

/-- No step to take. -/
theorem RunEnds.zero (bs : List Word) (s : State) : RunEnds bs 0 s 0 s .outOfSteps where
  le_bound := Nat.le_refl 0
  stepsIn := .zero
  between _ _ h := absurd h (Nat.not_lt_zero _)
  atBreakpoint h := by cases h
  outOfSteps _ := ⟨rfl, fun h => absurd h (Nat.not_lt_zero _)⟩

/-- The first step reaches a breakpoint. -/
theorem RunEnds.one {bs : List Word} {s s' : State} (hstep : step s = .next s') (h : s'.pc ∈ bs) (n : Nat) :
    RunEnds bs (n + 1) s 1 s' .atBreakpoint where
  le_bound := Nat.le_add_left 1 n
  stepsIn := .succ .zero hstep
  between j _ hlt := by omega
  atBreakpoint _ := ⟨Nat.one_pos, h⟩
  outOfSteps h := by cases h

/-- The first step reaches none, and the rest of the run ends as said. -/
theorem RunEnds.cons {bs : List Word} {n k : Nat} {s s' t : State} {e : RunEnd} (hstep : step s = .next s')
    (h : s'.pc ∉ bs) (hrest : RunEnds bs n s' k t e) : RunEnds bs (n + 1) s (k + 1) t e where
  le_bound := Nat.succ_le_succ hrest.le_bound
  stepsIn := (StepsIn.succ_iff hstep).2 hrest.stepsIn
  between j u hlt hu := by
    have hu' := (StepsIn.succ_iff hstep).1 hu
    cases j with
    | zero => rwa [StepsIn.zero_iff.1 hu']
    | succ j => exact hrest.between j u (Nat.lt_of_succ_lt_succ hlt) hu'
  atBreakpoint he := ⟨Nat.succ_pos k, (hrest.atBreakpoint he).2⟩
  outOfSteps he := by
    obtain ⟨hk, hnot⟩ := hrest.outOfSteps he
    refine ⟨congrArg Nat.succ hk, fun _ => ?_⟩
    rcases Nat.eq_zero_or_pos k with rfl | hpos
    · rwa [StepsIn.zero_iff.1 hrest.stepsIn]
    · exact hnot hpos

theorem runSteps_ends (bs : List Word) (n : Nat) (s : State) :
    ∃ k t e, runSteps bs n s = .next (t, e) ∧ RunEnds bs n s k t e := by
  induction n generalizing s with
  | zero => exact ⟨0, s, _, rfl, .zero bs s⟩
  | succ n ih =>
    obtain ⟨s', hstep⟩ := canStep s
    rw [runSteps, hstep]
    by_cases h : s'.pc ∈ bs
    · exact ⟨1, s', _, if_pos h, .one hstep h n⟩
    · obtain ⟨k, t, e, hrun, hends⟩ := ih s'
      exact ⟨k + 1, t, e, (if_neg h).trans hrun, .cons hstep h hends⟩

end Sys2Proof.Machine

namespace Sys2Proof
open Machine

/-- Settles O59: the test before the first step, where there is one, either ends the run at once or says that the start
is at no breakpoint; every later test is one of `runSteps`. -/
theorem hostRunEndsAtABreakpointOrOutOfSteps : Obligations.HostRunEndsAtABreakpointOrOutOfSteps := by
  intro p n s
  by_cases hfirst : p.checkBeforeFirst = true ∧ s.pc ∈ p.breakpoints
  · exact ⟨0, s, .atBreakpoint, if_pos hfirst, Nat.zero_le n, .zero, fun _ _ h => absurd h (Nat.not_lt_zero _),
      fun _ => ⟨.inr hfirst.1, hfirst.2⟩, fun h => by cases h⟩
  · obtain ⟨k, t, e, hrun, hends⟩ := runSteps_ends p.breakpoints n s
    have hstart {j : Nat} {u : State} (hj : j = 0) (hu : StepsIn s j u) (htested : PcTested p j) :
        u.pc ∉ p.breakpoints := by
      subst hj
      rw [StepsIn.zero_iff.1 hu]
      exact fun hmem => hfirst ⟨htested.resolve_left (Nat.lt_irrefl 0), hmem⟩
    refine ⟨k, t, e, (if_neg hfirst).trans hrun, hends.le_bound, hends.stepsIn, fun j u hlt hu htested => ?between,
      fun he => ?atBreakpoint, fun he => ?outOfSteps⟩
    case between =>
      cases j with
      | zero => exact hstart rfl hu htested
      | succ j => exact hends.between j u hlt hu
    case atBreakpoint =>
      obtain ⟨hpos, hmem⟩ := hends.atBreakpoint he
      exact ⟨.inl hpos, hmem⟩
    case outOfSteps =>
      obtain ⟨hk, hnot⟩ := hends.outOfSteps he
      refine ⟨hk, fun htested => ?_⟩
      rcases Nat.eq_zero_or_pos k with hzero | hpos
      · exact hstart hzero hends.stepsIn htested
      · exact hnot hpos

end Sys2Proof
end
